-- ==== Sys2Proof/Word.lean ====
section
/-! DEFINITION. The two widths of the machine: the byte (general registers, memory) and the 16-bit word
(instruction word, I, PC, stack entries). Rules R5, R11. -/

namespace Sys2Proof

/-- Eight bits: a general register, a memory byte, SP, DT, ST (R5 `XLEN`, `SPLEN`, `TLEN`). -/
abbrev Byte := BitVec 8

/-- Sixteen bits: an instruction word, I, PC, a stack entry (R5 `ILEN`, `PCLEN`). -/
abbrev Word := BitVec 16

end Sys2Proof
end

