-- ==== Sys2Proof/Config.lean ====
section
/-! DEFINITION. The implementation parameters of rule R5, as named constants, and the one configuration
field the spec offers a model (R71). The parameters `FONT`, `IMAGE` and `STEPS` of rule R6 are arguments of
`construct`, `load` and `bootAndRun`; the default of `FONT` is in Machine/Font.lean. -/

namespace Sys2Proof

/-- `MEM_SIZE`: bytes of memory (R5). -/
def Config.memSize : Nat := 4096

/-- `FONT_BASE`: first byte of the font region (R5). -/
def Config.fontBase : Nat := 0

/-- `FONT_LEN`: bytes of the font region (R5). -/
def Config.fontLen : Nat := 80

/-- `PROG_BASE`: first byte of the program image, and PC and I after load (R5). -/
def Config.progBase : Nat := 0x200

/-- `PROG_MAX`: the most bytes a load may write (R5). -/
def Config.progMax : Nat := Config.memSize - Config.progBase

/-- `SPRITE_W`: columns of a sprite row (R5). -/
def Config.spriteWidth : Nat := 8

/-- `INSN_LEN`: bytes in one instruction word (R5, D1). -/
def Config.insnLen : Nat := 2

/-- `SET_INDEX_ASSIGNS` (R71): the set-index family assigns its operand to I. The spec takes `true` (R70, D4).
DESIGN CHOICE of the spec followed here, log 5. -/
def Config.setIndexAssigns : Bool := true

end Sys2Proof
end

