-- ==== Sys2Proof/Machine/State.lean ====
section
/-! DEFINITION. The whole state of the core (10_state.md: the tuple of V, I, PC, STACK, SP, DT, ST, MEM, FB, LIFE),
the reasons a step can stop, and the state after reset. -/

namespace Sys2Proof.Machine

/-- `LIFE`, the lifecycle state (R24). -/
inductive Life where
  /-- Constructed, no image loaded. -/
  | empty
  /-- An image has been loaded: steps are accepted. -/
  | running
  /-- The load failed: the core is never stepped. -/
  | failed
  deriving DecidableEq, Repr

/-- `MEM`: the bytes that differ from what an unlisted address reads as, by rising address (R22). The canonical form
is `Memory.wf` in Machine/Ops.lean. -/
abbrev Memory := List Host.Cell

/-- `FB`: 32 rows of 64 one-bit cells (R23). -/
abbrev Framebuffer := Vector (Vector Bool 64) 32

/-- The state of the core. -/
structure State where
  /-- `V[0..15]`, the general registers (R13); `V[15]` is also the collision flag (R14). -/
  v : Vector Byte 16
  /-- `I`, the index register (R15). -/
  i : Word
  /-- `PC`, the program counter (R16). -/
  pc : Word
  /-- `STACK[0..15]`, the call stack (R18). -/
  stack : Vector Word 16
  /-- `SP`, the stack pointer (R19). -/
  sp : Byte
  /-- `DT`, the delay timer (R20). -/
  dt : Byte
  /-- `ST`, the sound timer (R21). -/
  st : Byte
  /-- `MEM[0..4095]` (R22). -/
  mem : Memory
  /-- `FB[0..31][0..63]` (R23). -/
  fb : Framebuffer
  /-- `LIFE` (R24). -/
  life : Life
  deriving DecidableEq, Repr

/-- Why a step stops with a fault: never. No access can fault (R38), no condition raises an exception (R80, R82), and
the unknown opcode is an output, not a fault (R75, R81). Nobody raises one; the empty type is safe, since it
claims no more than those rules. -/
inductive Fault where
  deriving DecidableEq, Repr

/-- Why an event has no meaning. -/
inductive Refusal where
  /-- An arm of `exec` with no meaning yet. Raised by no arm of this model. Safe: nothing is claimed of it. -/
  | notModelled (mnemonic : String)
  /-- A `step` in EMPTY (R97). Raised by the step. Safe: the spec gives the event no meaning there. -/
  | stepBeforeLoad
  /-- A `step` in FAILED (R95, R97). Raised by the step. Safe, as above. -/
  | stepAfterFailedLoad
  /-- A `load` in RUNNING (R97). Raised by `load`. Safe, as above. -/
  | loadWhileRunning
  /-- A `load` in FAILED (R97). Raised by `load`. Safe, as above. -/
  | loadAfterFailedLoad
  deriving DecidableEq, Repr

/-- The framebuffer with every cell 0 (R23, R60). -/
def blankScreen : Framebuffer := Vector.replicate 32 (Vector.replicate 64 false)

/-- The machine right after the event `construct` with the default font (R92, R93, first column of R27): everything
zero, LIFE = EMPTY, memory with nothing listed (the font is what an unlisted address 0 to 79 reads as, log 12). -/
def State.reset : State where
  v := Vector.replicate 16 0
  i := 0
  pc := 0
  stack := Vector.replicate 16 0
  sp := 0
  dt := 0
  st := 0
  mem := []
  fb := blankScreen
  life := .empty

end Sys2Proof.Machine
end

