-- ==== Sys2Proof/Machine/Font.lean ====
section
/-! DEFINITION. The parameter FONT (R6): its type, and the spec's default bytes (R93). PRESUMED, log 2: the document
lists no font bytes; the default is the customary hexadecimal font. -/

namespace Sys2Proof.Machine

/-- A value of the parameter `FONT`: the 80 bytes the font installer writes at addresses 0 to 79 (R6). -/
abbrev Font := Vector Byte 80

/-- The default font, glyph by glyph as rule R93 tabulates it. -/
def defaultFontBytes : List Byte :=
  [0xF0, 0x90, 0x90, 0x90, 0xF0] -- 0
  ++ [0x20, 0x60, 0x20, 0x20, 0x70] -- 1
  ++ [0xF0, 0x10, 0xF0, 0x80, 0xF0] -- 2
  ++ [0xF0, 0x10, 0xF0, 0x10, 0xF0] -- 3
  ++ [0x90, 0x90, 0xF0, 0x10, 0x10] -- 4
  ++ [0xF0, 0x80, 0xF0, 0x10, 0xF0] -- 5
  ++ [0xF0, 0x80, 0xF0, 0x90, 0xF0] -- 6
  ++ [0xF0, 0x10, 0x20, 0x40, 0x40] -- 7
  ++ [0xF0, 0x90, 0xF0, 0x90, 0xF0] -- 8
  ++ [0xF0, 0x90, 0xF0, 0x10, 0xF0] -- 9
  ++ [0xF0, 0x90, 0xF0, 0x90, 0x90] -- A
  ++ [0xE0, 0x90, 0xE0, 0x90, 0xE0] -- B
  ++ [0xF0, 0x80, 0x80, 0x80, 0xF0] -- C
  ++ [0xE0, 0x90, 0x90, 0x90, 0xE0] -- D
  ++ [0xF0, 0x80, 0xF0, 0x80, 0xF0] -- E
  ++ [0xF0, 0x80, 0xF0, 0x80, 0x80] -- F

/-- The default font as a value of the parameter. -/
def defaultFont : Font := Vector.ofFn fun k => defaultFontBytes.getD k.val 0

end Sys2Proof.Machine
end

