-- ==== Sys2Proof/Machine/Ops.lean ====
section
/-! DEFINITION. The named operations over memory, registers, the framebuffer and the program counter, and the
unknown-opcode event. Every read and write of state goes through them. There is no exception entry and no exception
return here, because the machine has neither (R80, R85, R86). -/

namespace Sys2Proof.Machine

/-! ### The loop of the pseudocode (R12) -/

/-- `for k in 0 .. n-1: body k`, the state threaded through. -/
def forUpTo {α : Type} : Nat → (Nat → α → α) → α → α
  | 0, _, a => a
  | k + 1, body, a => body k (forUpTo k body a)

/-! ### Memory (R22, R33, R34) -/

/-- What an address that memory does not list reads as: the reset contents, FONT at 0 to 79 and 0 above (R27, R93).
With the default font: PRESUMED, log 2 and log 12. -/
def Memory.unlisted (a : Nat) : Byte := defaultFontBytes.getD a 0

/-- The byte at an address below 4096. -/
def Memory.byteOf : Memory → Nat → Byte
  | [], a => Memory.unlisted a
  | (b, w) :: m, a => if a = b then w else Memory.byteOf m a

/-- The memory with the byte at an address replaced. A byte equal to what the address reads as when unlisted is not
listed, so the canonical form is kept. -/
def Memory.put : Memory → Nat → Byte → Memory
  | [], a, w => if w = Memory.unlisted a then [] else [(a, w)]
  | (b, u) :: m, a, w =>
    if a < b then (if w = Memory.unlisted a then (b, u) :: m else (a, w) :: (b, u) :: m)
    else if a = b then (if w = Memory.unlisted a then m else (a, w) :: m)
    else (b, u) :: Memory.put m a w

/-- The canonical form: addresses strictly rising and below 4096, and no entry equal to what its address reads as
when unlisted. -/
abbrev Memory.wf (m : Memory) : Prop :=
  m.Pairwise (fun c d => c.1 < d.1) ∧ ∀ c ∈ m, c.1 < Config.memSize ∧ c.2 ≠ Memory.unlisted c.1

/-- `MemRead(addr, 1)` (R33): every address is taken modulo 4096. -/
def Memory.read (m : Memory) (addr : Nat) : Byte := m.byteOf (addr % Config.memSize)

/-- `MemRead(addr, 2)` (R33): big-endian, the second byte's address taken modulo 4096 as well (R32, R44). -/
def Memory.read2 (m : Memory) (addr : Nat) : Word := m.read addr ++ m.read (addr + 1)

/-- `MemWrite(addr, 1, v)` (R34). No instruction performs it: the font installer and the loader do. -/
def Memory.write (m : Memory) (addr : Nat) (b : Byte) : Memory := m.put (addr % Config.memSize) b

/-- Bytes written at consecutive addresses, from the last to the first: the addresses are different, so the order
cannot be observed (log 9). -/
def Memory.writeBytes : Memory → Nat → List Byte → Memory
  | m, _, [] => m
  | m, addr, b :: bs => (Memory.writeBytes m (addr + 1) bs).write addr b

/-- The memory whose 4096 bytes are all zero (R92). -/
def Memory.zeroed : Memory := Memory.writeBytes [] Config.fontBase (List.replicate Config.fontLen 0)

/-- The memory after the zero fill and the font installer (R92, R93). -/
def Memory.withFont (font : Font) : Memory := Memory.zeroed.writeBytes Config.fontBase font.toList

/-- The byte of memory at an address, as a step or an observer reads it (R10, R33). -/
def State.byteAt (s : State) (addr : Nat) : Byte := s.mem.read addr

/-- The two-byte word of memory at an address (R33). -/
def State.wordAt (s : State) (addr : Nat) : Word := s.mem.read2 addr

/-! ### Registers (R13 to R21) -/

/-- `V[x]` (R13): sixteen registers, none of them hardwired. -/
def State.reg (s : State) (x : BitVec 4) : Byte := s.v[x.toNat]

/-- `V[x] <- b` (R13). -/
def State.setReg (s : State) (x : BitVec 4) (b : Byte) : State := { s with v := s.v.set x.toNat b }

/-- `I <- w` (R15). -/
def State.setI (s : State) (w : Word) : State := { s with i := w }

/-- `PC <- w` (R16). -/
def State.setPc (s : State) (w : Word) : State := { s with pc := w }

/-- `STACK[k]` (R18): no instruction reads it; it is readable between steps (R10). -/
def State.stackEntry (s : State) (k : BitVec 4) : Word := s.stack[k.toNat]

/-- The address after the instruction at `pc`: `(PC + 2) mod 4096` (R17, D2, D6). -/
def nextPc (pc : Word) : Word := BitVec.ofNat 16 ((pc.toNat + Config.insnLen) % Config.memSize)

/-- `PC <- (PC + 2) mod 4096` (R17). -/
def State.advance (s : State) : State := s.setPc (nextPc s.pc)

/-! ### The framebuffer (R23, R37) -/

/-- `FB[row][col]`. -/
def cellOf (fb : Framebuffer) (row : Fin 32) (col : Fin 64) : Bool := fb[row.val][col.val]

/-- `FB[row][col] <- FB[row][col] xor 1`. -/
def toggleCell (fb : Framebuffer) (row : Fin 32) (col : Fin 64) : Framebuffer :=
  fb.set row.val (fb[row.val].set col.val (!cellOf fb row col))

/-- The cell of the state's framebuffer (R10, the framebuffer view). -/
def State.cell (s : State) (row : Fin 32) (col : Fin 64) : Bool := cellOf s.fb row col

/-- The framebuffer replaced as a whole. -/
def State.setFb (s : State) (fb : Framebuffer) : State := { s with fb := fb }

/-! ### The one error condition (R75, R81) -/

/-- What the report of an unknown opcode does to the state: nothing. PC keeps pointing at the word (R75, R85); the
report itself is an output (Machine/Outputs.lean). -/
def State.reportUnknownOpcode (s : State) (_op : Word) : State := s

end Sys2Proof.Machine
end

