-- ==== Sys2Proof/Machine/Operands.lean ====
section
/-! DEFINITION. The operand forms (R48): zero-extended immediates, the fixed coordinate registers of the draw, the
sprite's bytes and bits, and the cell a sprite bit falls on (R72). -/

namespace Sys2Proof.Machine

/-- `zext_16(nnn)` (R48): the top four bits are zero. -/
def zextAddress (nnn : BitVec 12) : Word := nnn.setWidth 16

/-- The X coordinate of a draw: always V0 (R48, R72; log 6). -/
def State.drawX (s : State) : Byte := s.reg 0

/-- The Y coordinate of a draw: always V1 (R48, R72; log 6). -/
def State.drawY (s : State) : Byte := s.reg 1

/-- The sprite byte of row `r`: `MemRead(I + r, 1)`, the address modulo 4096 (R72, R33). -/
def State.spriteByte (s : State) (r : Nat) : Byte := s.byteAt (s.i.toNat + r)

/-- Bit `7 - c` of a sprite byte: most significant first, so `c` counts from the left (R32, R72). -/
def spriteBit (b : Byte) (c : Nat) : Bool := b.getLsbD (7 - c)

/-- The framebuffer row of sprite row `r`: `(Y + r) mod 32` (R72). -/
def spriteRow (y : Byte) (r : Nat) : Fin 32 := Fin.ofNat 32 (y.toNat + r)

/-- The framebuffer column of sprite column `c`: `(X + c) mod 64` (R72; `90_conflicts.md` C4; log 6). -/
def spriteColumn (x : Byte) (c : Nat) : Fin 64 := Fin.ofNat 64 (x.toNat + c)

end Sys2Proof.Machine
end

