-- ==== Sys2Proof/Machine/Control.lean ====
section
/-! DEFINITION. Control: the jump (41_jp.md) and the unknown opcode (46_unknown.md). -/

namespace Sys2Proof.Machine

/-- `exec_JP(nnn)` (R62): PC becomes zext_16(nnn), nothing else. -/
def execJp (nnn : BitVec 12) (s : State) : Host.Outcome State Fault Refusal :=
  .next (s.setPc (zextAddress nnn))

/-- `exec_UNKNOWN(op)` (R75): a step that changes no state; PC does not advance (R76). -/
def execUnknown (op : Word) (s : State) : Host.Outcome State Fault Refusal :=
  .next (s.reportUnknownOpcode op)

end Sys2Proof.Machine
end

