-- ==== Sys2Proof/Syntax.lean ====
section
/-! DEFINITION. The instructions: one constructor per row of spec/opcode_table.json, the default row UNKNOWN
included. The fields are those of rule R46, each at its own width, so an operand out of range cannot be written. -/

namespace Sys2Proof

/-- One decoded instruction word (R47, R51). -/
inductive Instr where
  /-- `CLS`, format W (R60). -/
  | cls
  /-- `JP nnn`, format A (R62). -/
  | jp (nnn : BitVec 12)
  /-- `LD Vx, kk`, format R (R65). -/
  | ldVx (x : BitVec 4) (kk : Byte)
  /-- `ADD Vx, kk`, format R (R67). -/
  | addVx (x : BitVec 4) (kk : Byte)
  /-- `LD I, nnn`, format A (R70). -/
  | ldI (nnn : BitVec 12)
  /-- `DRW n`, format D (R72). `ignored` is op[11:4]: no effect (R53), kept so that a disassembler does not
  lose it (R55). -/
  | drw (ignored : Byte) (n : BitVec 4)
  /-- Any other word: the unknown opcode (R75), with the whole word as its operand. -/
  | unknown (op : Word)
  deriving DecidableEq, Repr

end Sys2Proof
end

