-- ==== Sys2Proof/WellFormed.lean ====
section
/-! DEFINITION. Which instruction terms stand for a word. Every operand but one is exactly as wide as its field,
so it needs no check (R13, U5: "no additional guard is required"). The word of `unknown` must fit none of the six
families, or it would be another spelling of one of them (R50, R51). -/

namespace Sys2Proof

/-- The word fits none of the six rows of the opcode map (R51, in its match-and-mask form). -/
def fitsNoFamily (op : Word) : Bool :=
  (op &&& 0xFFFF != 0x00E0) && (op &&& 0xF000 != 0x1000) && (op &&& 0xF000 != 0x6000) &&
  (op &&& 0xF000 != 0x7000) && (op &&& 0xF000 != 0xA000) && (op &&& 0xF000 != 0xD000)

/-- The term is the reading of some instruction word. -/
def Instr.wellFormed : Instr → Bool
  | .cls => true
  | .jp _ => true
  | .ldVx _ _ => true
  | .addVx _ _ => true
  | .ldI _ => true
  | .drw _ _ => true
  | .unknown op => fitsNoFamily op

end Sys2Proof
end

