-- ==== Sys2Proof/Decode.lean ====
section
/-! DEFINITION. Fields of the instruction word (R46), the decoder (R50, R51), the encoder (R46, R47), the row of
spec/opcode_table.json as a number, and the disassembler (R55). The decoder is total: a word always has exactly one
reading (R50), and fewer than two bytes are rejected by name. -/

namespace Sys2Proof

/-! ### Fields of the word (R46) -/

/-- `fam = op[15:12]`. -/
def opFam (op : Word) : BitVec 4 := op.extractLsb' 12 4

/-- `x = op[11:8]`. -/
def opX (op : Word) : BitVec 4 := op.extractLsb' 8 4

/-- `n = op[3:0]`. -/
def opN (op : Word) : BitVec 4 := op.extractLsb' 0 4

/-- `kk = op[7:0]`. -/
def opKk (op : Word) : Byte := op.extractLsb' 0 8

/-- `nnn = op[11:0]`. -/
def opNnn (op : Word) : BitVec 12 := op.extractLsb' 0 12

/-- `op[11:4]`, the don't-care bits of a draw word (R53). -/
def opIgnored (op : Word) : Byte := op.extractLsb' 4 8

/-! ### Decoding -/

/-- The dispatch of the step (R50): clear screen by the full word, the other five by the high nibble alone (R49),
anything else the unknown opcode (R52). -/
def decodeWord (op : Word) : Instr :=
  if op = 0x00E0 then .cls
  else if opFam op = 0x1 then .jp (opNnn op)
  else if opFam op = 0x6 then .ldVx (opX op) (opKk op)
  else if opFam op = 0x7 then .addVx (opX op) (opKk op)
  else if opFam op = 0xA then .ldI (opNnn op)
  else if opFam op = 0xD then .drw (opIgnored op) (opN op)
  else .unknown op

/-- The word two bytes make, the byte at the lower address the high one (R32). -/
def wordOfBytes (hi lo : Byte) : Word := hi ++ lo

/-- The high byte of a word, stored at the lower address (R32). -/
def highByte (op : Word) : Byte := op.extractLsb' 8 8

/-- The low byte of a word, stored at the higher address (R32). -/
def lowByte (op : Word) : Byte := op.extractLsb' 0 8

/-- Why bytes are no instruction. -/
inductive DecodeError where
  /-- Fewer than the two bytes of an instruction word (R45, R54). -/
  | truncated
  deriving DecidableEq, Repr

/-- Read one instruction from the front of a byte list, and give back the rest (R45). -/
def decode : List Byte → Except DecodeError (Instr × List Byte)
  | hi :: lo :: rest => .ok (decodeWord (wordOfBytes hi lo), rest)
  | [_] => .error .truncated
  | [] => .error .truncated

/-! ### Encoding -/

/-- The word of an instruction, from the formats of R47. -/
def encodeWord : Instr → Word
  | .cls => 0x00E0
  | .jp nnn => 0x1#4 ++ nnn
  | .ldVx x kk => 0x6#4 ++ x ++ kk
  | .addVx x kk => 0x7#4 ++ x ++ kk
  | .ldI nnn => 0xA#4 ++ nnn
  | .drw ignored n => 0xD#4 ++ ignored ++ n
  | .unknown op => op

/-- The bytes of an instruction in the order memory holds them (R32, R45). -/
def encode (i : Instr) : List Byte := [highByte (encodeWord i), lowByte (encodeWord i)]

/-! ### Words as spec/opcode_table.json numbers them -/

/-- The instruction word that the table's number stands for: its low `nbits` bits, the first word in bits 15 to 0
(log 16). -/
def tableWord (nbits w : Nat) : Word := BitVec.ofNat 16 (w % 2 ^ nbits)

/-- What the decoder reads from the bytes of the table's word. -/
def decodeTableWord (nbits w : Nat) : Option Instr :=
  match decode [highByte (tableWord nbits w), lowByte (tableWord nbits w)] with
  | .ok (i, _) => some i
  | .error _ => none

/-! ### Disassembly (R55) -/

/-- One hexadecimal digit. -/
def hexDigit (d : BitVec 4) : String :=
  match d.toNat with
  | 0 => "0" | 1 => "1" | 2 => "2" | 3 => "3" | 4 => "4" | 5 => "5" | 6 => "6" | 7 => "7"
  | 8 => "8" | 9 => "9" | 10 => "A" | 11 => "B" | 12 => "C" | 13 => "D" | 14 => "E" | _ => "F"

/-- A hexadecimal numeral of two digits. -/
def hexByte (b : Byte) : String := "0x" ++ hexDigit (b.extractLsb' 4 4) ++ hexDigit (b.extractLsb' 0 4)

/-- A hexadecimal numeral of three digits. -/
def hexAddress (a : BitVec 12) : String :=
  "0x" ++ hexDigit (a.extractLsb' 8 4) ++ hexDigit (a.extractLsb' 4 4) ++ hexDigit (a.extractLsb' 0 4)

/-- A hexadecimal numeral of four digits. -/
def hexWord (w : Word) : String :=
  "0x" ++ hexDigit (w.extractLsb' 12 4) ++ hexDigit (w.extractLsb' 8 4) ++ hexDigit (w.extractLsb' 4 4)
    ++ hexDigit (w.extractLsb' 0 4)

/-- The assembler text of an instruction (R55): a draw keeps its x and y nibbles, an unknown word is data. -/
def Instr.assembly : Instr → String
  | .cls => "CLS"
  | .jp nnn => "JP " ++ hexAddress nnn
  | .ldVx x kk => "LD V" ++ hexDigit x ++ ", " ++ hexByte kk
  | .addVx x kk => "ADD V" ++ hexDigit x ++ ", " ++ hexByte kk
  | .ldI nnn => "LD I, " ++ hexAddress nnn
  | .drw ignored n =>
    "DRW V" ++ hexDigit (ignored.extractLsb' 4 4) ++ ", V" ++ hexDigit (ignored.extractLsb' 0 4) ++ ", "
      ++ Nat.repr n.toNat
  | .unknown op => "DW " ++ hexWord op

end Sys2Proof
end

