-- ==== Sys2Proof/Machine/Outputs.lean ====
section
/-! DEFINITION. The outputs of the core (R10): the render request and the unknown-opcode report of one step. They are
pulses, not state (R26), so they are functions of what the step executes (log 7). -/

namespace Sys2Proof.Machine

/-- The pulses a step raises at its end (R10). The framebuffer view is `State.cell`. -/
structure Outputs where
  /-- `render_request`: a pulse without content. -/
  renderRequest : Bool
  /-- `unknown_opcode`: the 16-bit word that was fetched. -/
  unknownOpcode : Option Word
  deriving DecidableEq, Repr

/-- No output. -/
def Outputs.none : Outputs := { renderRequest := false, unknownOpcode := Option.none }

/-- `request_render` (R12). -/
def Outputs.render : Outputs := { renderRequest := true, unknownOpcode := Option.none }

/-- `report UnknownOpcode(op)` and `request_render` (R75). -/
def Outputs.report (op : Word) : Outputs := { renderRequest := true, unknownOpcode := some op }

/-- The outputs of each instruction: CLS (R61), DRW (R72) and the unknown opcode (R75) request a render; the other
four raise nothing (R66). -/
def instrOutputs : Instr → Outputs
  | .cls => Outputs.render
  | .jp _ => Outputs.none
  | .ldVx _ _ => Outputs.none
  | .addVx _ _ => Outputs.none
  | .ldI _ => Outputs.none
  | .drw _ _ => Outputs.render
  | .unknown op => Outputs.report op

end Sys2Proof.Machine
end

