-- ==== Sys2Proof/Machine/Fetch.lean ====
section
/-! DEFINITION. The fetch: one 16-bit big-endian word at PC, for every family (R45, R50). -/

namespace Sys2Proof.Machine

/-- `op <- MemRead(PC, 2)` (R45, R50). -/
def State.fetchWord (s : State) : Word := s.wordAt s.pc.toNat

/-- The instruction the word at PC is (R50). -/
def State.fetchInstr (s : State) : Instr := decodeWord s.fetchWord

/-- The outputs of the step from this state (R10): none where a step is refused. -/
def State.stepOutputs (s : State) : Outputs :=
  match s.life with
  | .running => instrOutputs s.fetchInstr
  | .empty => Outputs.none
  | .failed => Outputs.none

end Sys2Proof.Machine
end

