-- ==== Sys2Proof/Machine/Lifecycle.lean ====
section
/-! DEFINITION. Construction, load, and what each lifecycle state accepts (70_reset_and_hazards.md). -/

namespace Sys2Proof.Machine

/-- The event `construct` (R92, R93): everything zero, then the font installed, LIFE = EMPTY. -/
def construct (font : Font) : State := { State.reset with mem := Memory.withFont font, life := .empty }

/-- The effect of an accepted load of a nonempty image (R94): at most 3584 bytes from 0x200, PC and I at 0x0200,
LIFE = RUNNING. A longer image is truncated (D19). -/
def State.loadImage (s : State) (image : List Byte) : State :=
  { s with
    mem := s.mem.writeBytes Config.progBase (image.take Config.progMax)
    pc := BitVec.ofNat 16 Config.progBase
    i := BitVec.ofNat 16 Config.progBase
    life := .running }

/-- The event `load(IMAGE)` (R94, R95, R97). -/
def load (image : List Byte) (s : State) : Host.Outcome State Fault Refusal :=
  match s.life with
  | .empty => if image.isEmpty then .next { s with life := .failed } else .next (s.loadImage image)
  | .running => .refused .loadWhileRunning
  | .failed => .refused .loadAfterFailedLoad

/-- A step is accepted in RUNNING alone (R50 precondition, R97). -/
def whenRunning (s : State) (run : State → Host.Outcome State Fault Refusal) : Host.Outcome State Fault Refusal :=
  match s.life with
  | .running => run s
  | .empty => .refused .stepBeforeLoad
  | .failed => .refused .stepAfterFailedLoad

/-- The state with these bytes as its next instruction (log 1): in RUNNING they are placed at PC; before that they
are loaded as the program image, as the machine's one way to come to run a program (R94, R97). -/
def State.placeInstruction (s : State) (bytes : List Byte) : State :=
  match s.life with
  | .running => { s with mem := s.mem.writeBytes s.pc.toNat bytes }
  | .empty => s.loadImage bytes
  | .failed => s.loadImage bytes

end Sys2Proof.Machine
end

