-- ==== Sys2Proof/Machine/Flags.lean ====
section
/-! DEFINITION. The machine's only flag: VF, the collision flag, written by DRW alone (R14). The addition computes no
flag at all (R67, R68). -/

namespace Sys2Proof.Machine

/-- The register that doubles as the collision flag: VF, `V[15]` (R14). -/
def flagRegister : BitVec 4 := 15

/-- The value VF takes: 1 if the draw toggled a cell that was 1, else 0 (R72). -/
def collisionFlag (hit : Bool) : Byte := if hit then 1 else 0

/-- `V[15] <- collision` (R14, R72). -/
def State.setCollision (s : State) (hit : Bool) : State := s.setReg flagRegister (collisionFlag hit)

/-- The sum of the addition: unsigned, modulo 256, no carry and no overflow recorded (R68). -/
def addByte (a b : Byte) : Byte := BitVec.ofNat 8 ((a.toNat + b.toNat) % 256)

end Sys2Proof.Machine
end

