-- ==== Sys2Proof/Machine/Registers.lean ====
section
/-! DEFINITION. The register families: set register (42_ld_vx.md), add to register (43_add_vx.md), set index
(44_ld_i.md). -/

namespace Sys2Proof.Machine

/-- `exec_LD_Vx(x, kk)` (R65): V[x] becomes kk, PC + 2. x = 15 writes VF as any register (R14; log 11). -/
def execLdVx (x : BitVec 4) (kk : Byte) (s : State) : Host.Outcome State Fault Refusal :=
  .next (s.setReg x kk).advance

/-- `exec_ADD_Vx(x, kk)` (R67): V[x] becomes (V[x] + kk) mod 256, no flag, PC + 2. -/
def execAddVx (x : BitVec 4) (kk : Byte) (s : State) : Host.Outcome State Fault Refusal :=
  .next (s.setReg x (addByte (s.reg x) kk)).advance

/-- The set-index family under a value of `SET_INDEX_ASSIGNS`: assign the operand to I (R70), or change nothing but
PC (R71). -/
def setIndex (assigns : Bool) (nnn : BitVec 12) (s : State) : State :=
  (if assigns then s.setI (zextAddress nnn) else s).advance

/-- `exec_LD_I(nnn)` (R70): I becomes zext_16(nnn), PC + 2. -/
def execLdI (nnn : BitVec 12) (s : State) : Host.Outcome State Fault Refusal :=
  .next (setIndex Config.setIndexAssigns nnn s)

end Sys2Proof.Machine
end

