-- ==== Sys2Proof/Machine/Screen.lean ====
section
/-! DEFINITION. The draw unit: clear screen (40_cls.md) and draw sprite (45_drw.md). -/

namespace Sys2Proof.Machine

/-- What one draw carries through its loops: the framebuffer, and whether a cell that was 1 has been toggled. -/
structure Canvas where
  fb : Framebuffer
  hit : Bool
  deriving DecidableEq, Repr

/-- Steps 4 and 5 of the draw (R72): record a collision if the cell is 1, then toggle it. -/
def Canvas.strike (cv : Canvas) (row : Fin 32) (col : Fin 64) : Canvas where
  fb := toggleCell cv.fb row col
  hit := cv.hit || cellOf cv.fb row col

/-- Step 3 for one bit (R72): only a set sprite bit touches its cell. -/
def Canvas.drawBit (x y : Byte) (r : Nat) (b : Byte) (c : Nat) (cv : Canvas) : Canvas :=
  if spriteBit b c then cv.strike (spriteRow y r) (spriteColumn x c) else cv

/-- One sprite row: its eight bits from the left (R72). -/
def Canvas.drawRow (x y : Byte) (r : Nat) (b : Byte) (cv : Canvas) : Canvas :=
  forUpTo Config.spriteWidth (fun c cv => cv.drawBit x y r b c) cv

/-- Step 2 (R72): `n` sprite rows from the top. -/
def Canvas.drawSprite (x y : Byte) (sprite : Nat → Byte) (n : Nat) (cv : Canvas) : Canvas :=
  forUpTo n (fun r cv => cv.drawRow x y r (sprite r)) cv

/-- The framebuffer and the collision of a draw from this state; the flag starts at 0 (R72 step 1). -/
def State.drawn (s : State) (n : BitVec 4) : Canvas :=
  Canvas.drawSprite s.drawX s.drawY s.spriteByte n.toNat { fb := s.fb, hit := false }

/-- `exec_CLS` (R60): every cell 0, PC + 2. -/
def execCls (s : State) : Host.Outcome State Fault Refusal :=
  .next (s.setFb blankScreen).advance

/-- `exec_DRW(n)` (R72). `op[11:4]` takes no part (R53). VF is written once, after the loops, with what the
pseudocode leaves in it (DEDUCED, log 9). -/
def execDrw (_ignored : Byte) (n : BitVec 4) (s : State) : Host.Outcome State Fault Refusal :=
  .next ((s.setFb (s.drawn n).fb).setCollision (s.drawn n).hit).advance

end Sys2Proof.Machine
end

