-- ==== Sys2Proof/Machine/Dispatch.lean ====
section
/-! DEFINITION. The dispatch of R50: one arm per constructor. -/

namespace Sys2Proof.Machine

def exec (i : Instr) (s : State) : Host.Outcome State Fault Refusal :=
  match i with
  | .cls => Sys2Proof.Machine.execCls s
  | .jp nnn => Sys2Proof.Machine.execJp nnn s
  | .ldVx x kk => Sys2Proof.Machine.execLdVx x kk s
  | .addVx x kk => Sys2Proof.Machine.execAddVx x kk s
  | .ldI nnn => Sys2Proof.Machine.execLdI nnn s
  | .drw ignored n => Sys2Proof.Machine.execDrw ignored n s
  | .unknown op => Sys2Proof.Machine.execUnknown op s

end Sys2Proof.Machine
end

