-- ==== Sys2Proof/Machine/Step.lean ====
section
/-! DEFINITION. One step (R50), and the placing of a next instruction for the host's checks (log 1, log 16). -/

namespace Sys2Proof.Machine

/-- The event `step` (R8, R50): refused unless RUNNING, else fetch one word, decode it, execute it. -/
def step (s : State) : Host.Outcome State Fault Refusal :=
  whenRunning s fun s => exec s.fetchInstr s

/-- `s` with the table's word as the instruction its next step runs. -/
def State.withFetchWord (s : State) (nbits w : Nat) : State :=
  s.placeInstruction [highByte (tableWord nbits w), lowByte (tableWord nbits w)]

end Sys2Proof.Machine
end

