-- ==== Sys2Proof/Machine/Events.lean ====
section
/-! DEFINITION. The events the host raises (R9) and a whole run (R104). -/

namespace Sys2Proof.Machine

/-- An input of the core (R9). -/
inductive HostEvent where
  /-- `construct(FONT)` (R92, R93). -/
  | construct (font : Font)
  /-- `load(IMAGE)` (R94, R95). -/
  | load (image : List Byte)
  /-- `step` (R50). -/
  | step
  /-- The host stops raising `step`: no input of the core, no change of state (R104). -/
  | stop
  deriving DecidableEq, Repr

/-- What an event does in a state: the table of R97, and R104 for `stop`. `construct` rebuilds the state. -/
def onEvent (e : HostEvent) (s : State) : Host.Outcome State Fault Refusal :=
  match e with
  | .construct font => .next (construct font)
  | .load image => load image s
  | .step => step s
  | .stop => .next s

/-- `k` steps one after the other (R104), by the host's own `run`. -/
def runSteps (k : Nat) (s : State) : Host.Outcome State Fault Refusal := Sys2Proof.core.run k s

/-- A run (R104): `construct`, `load(IMAGE)`, then `STEPS` steps. -/
def bootAndRun (font : Font) (image : List Byte) (steps : Nat) : Host.Outcome State Fault Refusal :=
  match load image (construct font) with
  | .next s => runSteps steps s
  | .fault r => .fault r
  | .refused r => .refused r

end Sys2Proof.Machine
end

