-- ==== Sys2Proof/Safety.lean ====
section
/-! DEFINITION. The terms claims are stated in: what two states share (for frames), the invariant of every reachable
state (R29), where a run stays put (R63, R76, R105), which cells a sprite covers (R73), and the monitor that records an
unknown opcode outside the state (R77). -/

namespace Sys2Proof.Machine

/-! ### Frames -/

/-- Every byte of memory reads the same. -/
def SameMemory (s t : State) : Prop := ∀ addr : Nat, t.byteAt addr = s.byteAt addr

/-- Every cell of the framebuffer is the same. -/
def SameScreen (s t : State) : Prop := ∀ (row : Fin 32) (col : Fin 64), t.cell row col = s.cell row col

/-- Every general register but `x` is the same. -/
def SameRegsBut (x : BitVec 4) (s t : State) : Prop := ∀ y : BitVec 4, y ≠ x → t.reg y = s.reg y

/-- Every general register is the same. -/
def SameRegs (s t : State) : Prop := ∀ y : BitVec 4, t.reg y = s.reg y

/-- The state no instruction touches is the same: the call stack, SP, the two timers (R18 to R21) and LIFE (R98). -/
def SameInert (s t : State) : Prop :=
  (∀ k : BitVec 4, t.stackEntry k = s.stackEntry k) ∧ t.sp = s.sp ∧ t.dt = s.dt ∧ t.st = s.st ∧ t.life = s.life

/-- PC has moved past one instruction: `(PC + 2) mod 4096` (R17). -/
def PcAdvanced (s t : State) : Prop := t.pc.toNat = (s.pc.toNat + 2) % 4096

/-! ### Invariants (R29) -/

/-- What holds in every state the host's events can reach (R29), before a load as well: memory in canonical form, PC
and I valid memory addresses, the inert registers zero. -/
structure Inv (s : State) : Prop where
  memory : Memory.wf s.mem
  pc : s.pc.toNat ≤ 0x0FFF
  index : s.i.toNat ≤ 0x0FFF
  stack : ∀ k : BitVec 4, s.stackEntry k = 0
  sp : s.sp = 0
  delay : s.dt = 0
  sound : s.st = 0

/-! ### Where a run stays put -/

/-- PC = a with `MemRead(a, 2) = 0x1000 + a`: a jump to its own address, the good end of a run (R63, R105). -/
def AtSelfJump (s : State) : Prop := s.pc.toNat ≤ 0x0FFF ∧ (s.wordAt s.pc.toNat).toNat = 0x1000 + s.pc.toNat

/-- PC stands at a word of no family: the machine is held there (R76). -/
def AtUnknownOpcode (s : State) : Prop := fitsNoFamily (s.wordAt s.pc.toNat) = true

/-! ### The cells of a sprite (R73) -/

/-- `S(row, col) = 1`: some set bit of the sprite of height `n` at this state's V0, V1 and I falls on the cell. -/
def SpriteCovers (s : State) (n : BitVec 4) (row : Fin 32) (col : Fin 64) : Prop :=
  ∃ r c : Nat, r < n.toNat ∧ c < 8 ∧
    ((s.reg 1).toNat + r) % 32 = row.val ∧ ((s.reg 0).toNat + c) % 64 = col.val ∧
    (s.byteAt (s.i.toNat + r)).getLsbD (7 - c) = true

/-! ### The monitor of unknown opcodes (R77) -/

/-- The machine with a sticky bit of the model's own beside it: an unknown opcode has been reported. -/
structure Monitored where
  machine : State
  reported : Bool
  deriving DecidableEq, Repr

/-- One step, the report recorded. -/
def monitoredStep (m : Monitored) : Host.Outcome Monitored Fault Refusal :=
  match step m.machine with
  | .next t => .next { machine := t, reported := m.reported || m.machine.stepOutputs.unknownOpcode.isSome }
  | .fault r => .fault r
  | .refused r => .refused r

/-- `k` monitored steps. -/
def monitoredRun : Nat → Monitored → Host.Outcome Monitored Fault Refusal
  | 0, m => .next m
  | k + 1, m =>
    match monitoredStep m with
    | .next m' => monitoredRun k m'
    | .fault r => .fault r
    | .refused r => .refused r

/-- A safe run of `k` steps: it runs, and no unknown opcode is reported in it (R77). -/
def SafeRun (k : Nat) (s : State) : Prop :=
  ∃ t, monitoredRun k { machine := s, reported := false } = .next { machine := t, reported := false }

end Sys2Proof.Machine
end

