-- ==== Sys2Proof/Certificates/Slice0/Obligations.lean ====
section
/-! DEFINITION. The statements for the provers. Each docstring says which rule of spec/ it formalises. -/

open Sys2Proof Sys2Proof.Machine

/-! ### Encoding and decoding (30_encoding.md) -/

/-- Words written out from the encodings of R47 decode to the instructions they stand for (R55, vectors V-DEC). -/
def Obligations.SpecWordsDecode : Prop :=
  decode [0x00, 0xE0] = .ok (.cls, []) ∧
  decode [0x12, 0xA0] = .ok (.jp 0x2A0, []) ∧
  decode [0x6F, 0x01] = .ok (.ldVx 15 0x01, []) ∧
  decode [0x73, 0x10] = .ok (.addVx 3 0x10, []) ∧
  decode [0xA2, 0x0C] = .ok (.ldI 0x20C, []) ∧
  decode [0xDA, 0xB5] = .ok (.drw 0xAB 5, []) ∧
  decode [0x00, 0xEE] = .ok (.unknown 0x00EE, [])

/-- Decoding the bytes of a well-formed instruction gives it back and leaves the rest (R46, R47). -/
def Obligations.DecodeGivesBackEncodedInstruction : Prop :=
  ∀ (i : Instr) (rest : List Byte), i.wellFormed = true → decode (encode i ++ rest) = .ok (i, rest)

/-- The decoder is total on words (R50), reads a well-formed instruction, and drops no bit of it. -/
def Obligations.EncodeGivesBackDecodedBytes : Prop :=
  ∀ (hi lo : Byte) (rest : List Byte), ∃ i : Instr,
    decode (hi :: lo :: rest) = .ok (i, rest) ∧ i.wellFormed = true ∧ encode i = [hi, lo]

/-- R49: clear screen by the full word, the other five by the high nibble alone, any other value unknown. -/
def Obligations.FamilyByFullWordOrHighNibble : Prop :=
  ∀ w : Word,
    (decodeWord w = .cls ↔ w = 0x00E0) ∧
    ((∃ nnn, decodeWord w = .jp nnn) ↔ w.toNat / 4096 = 0x1) ∧
    ((∃ x kk, decodeWord w = .ldVx x kk) ↔ w.toNat / 4096 = 0x6) ∧
    ((∃ x kk, decodeWord w = .addVx x kk) ↔ w.toNat / 4096 = 0x7) ∧
    ((∃ nnn, decodeWord w = .ldI nnn) ↔ w.toNat / 4096 = 0xA) ∧
    ((∃ g n, decodeWord w = .drw g n) ↔ w.toNat / 4096 = 0xD) ∧
    ((∃ op, decodeWord w = .unknown op) ↔
      w ≠ 0x00E0 ∧ w.toNat / 4096 ≠ 0x1 ∧ w.toNat / 4096 ≠ 0x6 ∧ w.toNat / 4096 ≠ 0x7 ∧ w.toNat / 4096 ≠ 0xA ∧
        w.toNat / 4096 ≠ 0xD)

/-- The operand fields stand where R46 puts them: the word's number is made of the family and the decoded operands,
`fam || nnn` or `fam || x || kk`, for a draw `fam || op[11:4] || n`, and the unknown opcode carries the whole word. -/
def Obligations.OperandFieldsMakeTheWord : Prop :=
  ∀ w : Word,
    (∀ nnn, decodeWord w = .jp nnn → w.toNat = 0x1000 + nnn.toNat) ∧
    (∀ x kk, decodeWord w = .ldVx x kk → w.toNat = 0x6000 + x.toNat * 256 + kk.toNat) ∧
    (∀ x kk, decodeWord w = .addVx x kk → w.toNat = 0x7000 + x.toNat * 256 + kk.toNat) ∧
    (∀ nnn, decodeWord w = .ldI nnn → w.toNat = 0xA000 + nnn.toNat) ∧
    (∀ g n, decodeWord w = .drw g n → w.toNat = 0xD000 + g.toNat * 16 + n.toNat) ∧
    (∀ op, decodeWord w = .unknown op → op = w)

/-- R53: every word with high nibble 0xD is a draw, and its bits op[11:4] take no part in execution: two draw words
with the same low nibble do the same in every state. No other recognised instruction has a don't-care bit: two
different recognised words outside the draw family are different instructions. -/
def Obligations.DrawAloneHasDontCareBits : Prop :=
  (∀ w : Word, w.toNat / 4096 = 0xD → ∃ g n, decodeWord w = .drw g n ∧ n.toNat = w.toNat % 16) ∧
  (∀ (w w' : Word) (s : State), w.toNat / 4096 = 0xD → w'.toNat / 4096 = 0xD → w.toNat % 16 = w'.toNat % 16 →
    exec (decodeWord w) s = exec (decodeWord w') s) ∧
  (∀ w w' : Word, fitsNoFamily w = false → w.toNat / 4096 ≠ 0xD → decodeWord w = decodeWord w' → w = w')

/-! ### The step (R50) -/

/-- A step runs the decoded instruction: where the bytes at PC and PC + 1 decode to `i`, the step of a running machine
is `exec i`, with nothing around it. -/
def Obligations.StepRunsTheDecodedInstruction : Prop :=
  ∀ (s : State) (i : Instr), s.life = .running → i.wellFormed = true →
    decode [s.byteAt s.pc.toNat, s.byteAt (s.pc.toNat + 1)] = .ok (i, []) → step s = exec i s

/-- R50: refused unless RUNNING; else `op <- MemRead(PC, 2)` and one arm by the word or its high nibble. -/
def Obligations.StepDispatchesOnTheFetchedWord : Prop :=
  (∀ s : State, s.life ≠ .running → ∃ r, step s = .refused r) ∧
  (∀ (s : State) (op : Word), s.life = .running → s.wordAt s.pc.toNat = op →
    (op = 0x00E0 → step s = exec .cls s ∧ op.toNat / 4096 = 0) ∧
    (op.toNat / 4096 = 0x1 → step s = exec (.jp (op.extractLsb' 0 12)) s) ∧
    (op.toNat / 4096 = 0x6 → step s = exec (.ldVx (op.extractLsb' 8 4) (op.extractLsb' 0 8)) s) ∧
    (op.toNat / 4096 = 0x7 → step s = exec (.addVx (op.extractLsb' 8 4) (op.extractLsb' 0 8)) s) ∧
    (op.toNat / 4096 = 0xA → step s = exec (.ldI (op.extractLsb' 0 12)) s) ∧
    (op.toNat / 4096 = 0xD → step s = exec (.drw (op.extractLsb' 4 8) (op.extractLsb' 0 4)) s) ∧
    (op ≠ 0x00E0 → op.toNat / 4096 ≠ 0x1 → op.toNat / 4096 ≠ 0x6 → op.toNat / 4096 ≠ 0x7 → op.toNat / 4096 ≠ 0xA →
      op.toNat / 4096 ≠ 0xD → step s = exec (.unknown op) s))

/-- Every instruction word, placed as the next instruction of any state, is the one the next step runs (the model's
own loading of a word, log 1 and log 16), and the table's number decodes to the same instruction. -/
def Obligations.PlacedInstructionIsTheNextRun : Prop :=
  ∀ (s : State) (i : Instr), Memory.wf s.mem → i.wellFormed = true →
    decodeTableWord 16 (encodeWord i).toNat = some i ∧
    step (s.withFetchWord 16 (encodeWord i).toNat) = exec i (s.withFetchWord 16 (encodeWord i).toNat)

/-! ### Memory (20_memory.md) -/

/-- R32, R33: every address is reduced modulo 4096, and a two-byte read is big-endian, the address of its second byte
reduced too. -/
def Obligations.MemReadWrapsAndIsBigEndian : Prop :=
  ∀ (s : State) (addr : Nat),
    s.byteAt addr = s.byteAt (addr % 4096) ∧
    (s.wordAt addr).toNat = (s.byteAt (addr % 4096)).toNat * 256 + (s.byteAt ((addr + 1) % 4096)).toNat

/-- Two canonical memories that read alike at every address are the same memory. -/
def Obligations.CanonicalMemoriesReadingAlikeAreEqual : Prop :=
  ∀ m m' : Memory, Memory.wf m → Memory.wf m' → (∀ a, a < 4096 → m.read a = m'.read a) → m = m'

/-- R44: the edges of memory. A fetch at 0x0FFE reads 0xFFE and 0xFFF, one at 0x0FFF reads 0xFFF and 0x000; an
instruction that is neither a jump nor unknown leaves PC at 0x0000 or 0x0001; a sprite read past the top continues at
address 0x000; nothing stops. -/
def Obligations.TopOfMemoryWraps : Prop :=
  (∀ s : State, s.life = .running → s.pc = 0x0FFE →
    s.fetchWord = s.byteAt 0xFFE ++ s.byteAt 0xFFF ∧
    ∃ t, step s = .next t ∧
      (fitsNoFamily s.fetchWord = false → s.fetchWord.toNat / 4096 ≠ 0x1 → t.pc = 0x0000)) ∧
  (∀ s : State, s.life = .running → s.pc = 0x0FFF →
    s.fetchWord = s.byteAt 0xFFF ++ s.byteAt 0x000 ∧
    ∃ t, step s = .next t ∧
      (fitsNoFamily s.fetchWord = false → s.fetchWord.toNat / 4096 ≠ 0x1 → t.pc = 0x0001)) ∧
  (∀ (s : State) (r : Nat), s.i.toNat ≤ 0x0FFF → r ≤ 14 → 4096 ≤ s.i.toNat + r →
    0xFF2 ≤ s.i.toNat ∧ s.spriteByte r = s.byteAt (s.i.toNat + r - 4096))

/-! ### Construction and load (70_reset_and_hazards.md) -/

/-- R92: `construct` sets every piece of state to zero, installs FONT at addresses 0 to 79, and sets LIFE = EMPTY. -/
def Obligations.ConstructZeroesAndInstallsFont : Prop :=
  ∀ font : Font,
    (∀ x, (construct font).reg x = 0) ∧ (construct font).i = 0 ∧ (construct font).pc = 0 ∧
    (∀ k, (construct font).stackEntry k = 0) ∧ (construct font).sp = 0 ∧ (construct font).dt = 0 ∧
    (construct font).st = 0 ∧ (∀ row col, (construct font).cell row col = false) ∧
    (∀ (a : Nat) (h : a < 80), (construct font).byteAt a = font[a]) ∧
    (∀ a : Nat, 80 ≤ a → a < 4096 → (construct font).byteAt a = 0) ∧
    (construct font).life = .empty

/-- The reset state is the constructed state of the default font, byte by byte (first column of R27; the font's bytes
are PRESUMED, log 2). -/
def Obligations.ResetIsConstructionWithTheDefaultFont : Prop :=
  (∀ x, State.reset.reg x = 0) ∧ State.reset.i = 0 ∧ State.reset.pc = 0 ∧ (∀ k, State.reset.stackEntry k = 0) ∧
  State.reset.sp = 0 ∧ State.reset.dt = 0 ∧ State.reset.st = 0 ∧ (∀ row col, State.reset.cell row col = false) ∧
  State.reset.life = .empty ∧ (∀ a : Nat, State.reset.byteAt a = (construct defaultFont).byteAt a)

/-- R94: a load of a nonempty image in EMPTY writes its first 3584 bytes from 0x200, sets PC and I to 0x0200 and LIFE
to RUNNING, and writes nothing else. -/
def Obligations.LoadWritesTheImageAndNothingElse : Prop :=
  ∀ (s : State) (image : List Byte), s.life = .empty → Memory.wf s.mem → image ≠ [] →
    ∃ t, load image s = .next t ∧ t.pc = 0x0200 ∧ t.i = 0x0200 ∧ t.life = .running ∧
      (∀ k, k < image.length → k < 3584 → t.byteAt (0x200 + k) = image.getD k 0) ∧
      (∀ a, a < 4096 → ¬ (0x200 ≤ a ∧ a < 0x200 + min image.length 3584) → t.byteAt a = s.byteAt a) ∧
      SameRegs s t ∧ SameScreen s t ∧ (∀ k, t.stackEntry k = s.stackEntry k) ∧ t.sp = s.sp ∧ t.dt = s.dt ∧
      t.st = s.st

/-- R95: a load of an empty image sets LIFE = FAILED and writes nothing else, and no step is ever accepted after it;
without a load LIFE stays EMPTY and no step is accepted either. -/
def Obligations.EmptyImageFailsTheLoadForGood : Prop :=
  ∀ s : State, s.life = .empty →
    (∃ t, load [] s = .next t ∧ t.life = .failed ∧ t.pc = s.pc ∧ t.i = s.i ∧ SameMemory s t ∧ SameRegs s t ∧
      SameScreen s t ∧ (∀ k, t.stackEntry k = s.stackEntry k) ∧ t.sp = s.sp ∧ t.dt = s.dt ∧ t.st = s.st ∧
      ∀ k, runSteps (k + 1) t = .refused .stepAfterFailedLoad) ∧
    ∀ k, runSteps (k + 1) s = .refused .stepBeforeLoad

/-- R96, the second column of R27: the state the first step sees, for every font and every nonempty image. -/
def Obligations.StateOfTheFirstStep : Prop :=
  ∀ (font : Font) (image : List Byte), image ≠ [] →
    ∃ t, load image (construct font) = .next t ∧
      (∀ x, t.reg x = 0) ∧ t.i = 0x0200 ∧ t.pc = 0x0200 ∧ (∀ k, t.stackEntry k = 0) ∧ t.sp = 0 ∧ t.dt = 0 ∧ t.st = 0 ∧
      (∀ (a : Nat) (h : a < 80), t.byteAt a = font[a]) ∧
      (∀ a, 80 ≤ a → a < 512 → t.byteAt a = 0) ∧
      (∀ k, k < min image.length 3584 → t.byteAt (512 + k) = image.getD k 0) ∧
      (∀ a, 512 + min image.length 3584 ≤ a → a < 4096 → t.byteAt a = 0) ∧
      (∀ row col, t.cell row col = false) ∧ t.life = .running

/-- R97: what each lifecycle state accepts, cell by cell of its table. -/
def Obligations.LifecycleTable : Prop :=
  (∀ (font : Font) (s : State), ∃ t, onEvent (.construct font) s = .next t ∧ t.life = .empty ∧
    onEvent (.construct font) s = onEvent (.construct font) State.reset) ∧
  (∀ s : State, s.life = .empty →
    (∀ image, image ≠ [] → ∃ t, onEvent (.load image) s = .next t ∧ t.life = .running) ∧
    (∃ t, onEvent (.load []) s = .next t ∧ t.life = .failed) ∧
    (∃ r, onEvent .step s = .refused r)) ∧
  (∀ s : State, s.life = .running →
    (∀ image, ∃ r, onEvent (.load image) s = .refused r) ∧
    (∃ t, onEvent .step s = .next t ∧ t.life = .running)) ∧
  (∀ s : State, s.life = .failed →
    (∀ image, ∃ r, onEvent (.load image) s = .refused r) ∧
    (∃ r, onEvent .step s = .refused r))

/-! ### The six families and the unknown opcode (40_cls.md to 46_unknown.md) -/

/-- R60: CLS is the word 0x00E0 and no other; it clears every cell, advances PC, changes nothing else, and requests a
render. (The advance by 2 is the spec's decision D2.) -/
def Obligations.ClsClearsEveryCell : Prop :=
  (∀ w : Word, decodeWord w = .cls ↔ w = 0x00E0) ∧
  ∀ s : State, ∃ t, exec .cls s = .next t ∧
    (∀ row col, t.cell row col = false) ∧ PcAdvanced s t ∧
    SameRegs s t ∧ t.i = s.i ∧ SameMemory s t ∧ SameInert s t ∧ (instrOutputs .cls).renderRequest = true

/-- R62: the words 0x1000 to 0x1FFF are JP with operand op[11:0]; JP sets PC to the operand, zero-extended, so that
the next fetch reads from there, and changes nothing else. (The place of the operand is the spec's decision D3.) -/
def Obligations.JpSetsPcAndNothingElse : Prop :=
  (∀ w : Word, 0x1000 ≤ w.toNat → w.toNat ≤ 0x1FFF → decodeWord w = .jp (w.extractLsb' 0 12)) ∧
  ∀ (nnn : BitVec 12) (s : State), ∃ t, exec (.jp nnn) s = .next t ∧
    t.pc.toNat = nnn.toNat ∧ t.fetchWord = s.wordAt nnn.toNat ∧ SameRegs s t ∧ t.i = s.i ∧ SameScreen s t ∧ SameMemory s t ∧ SameInert s t

/-- R65: the words 0x6000 to 0x6FFF are LD Vx, kk with x = op[11:8] and kk = op[7:0]; it sets V[x], VF (x = 15)
included, advances PC, and changes nothing else. (Operand places, advance by 2 and VF as a destination are the spec's
decisions D3, D2, D9.) -/
def Obligations.LdVxSetsTheRegister : Prop :=
  (∀ w : Word, 0x6000 ≤ w.toNat → w.toNat ≤ 0x6FFF →
    decodeWord w = .ldVx (w.extractLsb' 8 4) (w.extractLsb' 0 8)) ∧
  ∀ (x : BitVec 4) (kk : Byte) (s : State), ∃ t, exec (.ldVx x kk) s = .next t ∧
    t.reg x = kk ∧ PcAdvanced s t ∧ SameRegsBut x s t ∧ t.i = s.i ∧ SameScreen s t ∧ SameMemory s t ∧ SameInert s t

/-- R67: the words 0x7000 to 0x7FFF are ADD Vx, kk with x = op[11:8] and kk = op[7:0]; it gives V[x] the sum modulo
256, advances PC, and changes nothing else: no flag, so VF keeps its value unless x = 15. (Decisions D3, D2, D9.) -/
def Obligations.AddVxAddsModulo256WithoutFlag : Prop :=
  (∀ w : Word, 0x7000 ≤ w.toNat → w.toNat ≤ 0x7FFF →
    decodeWord w = .addVx (w.extractLsb' 8 4) (w.extractLsb' 0 8)) ∧
  ∀ (x : BitVec 4) (kk : Byte) (s : State), ∃ t, exec (.addVx x kk) s = .next t ∧
    (t.reg x).toNat = ((s.reg x).toNat + kk.toNat) % 256 ∧ (x ≠ 15 → t.reg 15 = s.reg 15) ∧ PcAdvanced s t ∧
    SameRegsBut x s t ∧ t.i = s.i ∧ SameScreen s t ∧ SameMemory s t ∧ SameInert s t

/-- The arithmetic laws that a program sees (43_add_vx.md, in part marked there as derived): a sum is the same whether
its operands are read as unsigned or as two's complement, adding `256 - k` subtracts `k`, and a cell's row and column
and a sprite's address are the same when the sum is cut to 8 or 16 bits before it is reduced. -/
def Obligations.SumsAreModularUnsigned : Prop :=
  (∀ (x : BitVec 4) (kk : Byte) (s : State), ∃ t, exec (.addVx x kk) s = .next t ∧
    t.reg x = BitVec.ofInt 8 ((s.reg x).toInt + kk.toInt) ∧
    (kk ≠ 0 → t.reg x = s.reg x - BitVec.ofNat 8 (256 - kk.toNat))) ∧
  (∀ (y : Byte) (r : Nat), (spriteRow y r).val = (y + BitVec.ofNat 8 r).toNat % 32) ∧
  (∀ (x : Byte) (c : Nat), (spriteColumn x c).val = (x + BitVec.ofNat 8 c).toNat % 64) ∧
  (∀ (s : State) (r : Nat), s.spriteByte r = s.byteAt (s.i + BitVec.ofNat 16 r).toNat)

/-- R70: the words 0xA000 to 0xAFFF are LD I, nnn with operand op[11:0]; it sets I to the operand, zero-extended (so
I[15:12] = 0), advances PC, and changes nothing else. (That it assigns is the spec's decision D4, log 5; D2, D3.) -/
def Obligations.LdISetsTheIndex : Prop :=
  (∀ w : Word, 0xA000 ≤ w.toNat → w.toNat ≤ 0xAFFF → decodeWord w = .ldI (w.extractLsb' 0 12)) ∧
  ∀ (nnn : BitVec 12) (s : State), ∃ t, exec (.ldI nnn) s = .next t ∧
    t.i.toNat = nnn.toNat ∧ t.i.extractLsb' 12 4 = 0 ∧ PcAdvanced s t ∧
    SameRegs s t ∧ SameScreen s t ∧ SameMemory s t ∧ SameInert s t

/-- R71: the alternative with SET_INDEX_ASSIGNS = false changes nothing but PC; the machine takes the value true. -/
def Obligations.SetIndexAlternativeChangesOnlyPc : Prop :=
  ∀ (nnn : BitVec 12) (s : State),
    PcAdvanced s (setIndex false nnn s) ∧ (setIndex false nnn s).i = s.i ∧ SameRegs s (setIndex false nnn s) ∧
    SameScreen s (setIndex false nnn s) ∧ SameMemory s (setIndex false nnn s) ∧ SameInert s (setIndex false nnn s) ∧
    exec (.ldI nnn) s = .next (setIndex true nnn s)

/-- The closed form of the draw, which the spec marks as derived (45_drw.md: "A model may implement either form; they
agree"), with the draw's frame: the cells of different sprite positions are different, a cell is toggled exactly if a
set sprite bit falls on it, VF is 1 if such a cell was 1 before and 0 otherwise (n = 0 included), PC advances, and
nothing else changes. -/
def Obligations.DrawClosedForm : Prop :=
  (∀ (x y : Byte) (r r' c c' : Nat), r < 16 → r' < 16 → c < 8 → c' < 8 →
    spriteRow y r = spriteRow y r' → spriteColumn x c = spriteColumn x c' → r = r' ∧ c = c') ∧
  ∀ (ignored : Byte) (n : BitVec 4) (s : State), ∃ t, exec (.drw ignored n) s = .next t ∧
    (∀ row col, SpriteCovers s n row col → t.cell row col = !s.cell row col) ∧
    (∀ row col, ¬ SpriteCovers s n row col → t.cell row col = s.cell row col) ∧
    ((∃ row col, SpriteCovers s n row col ∧ s.cell row col = true) → t.reg 15 = 1) ∧
    ((∀ row col, SpriteCovers s n row col → s.cell row col = false) → t.reg 15 = 0) ∧
    PcAdvanced s t ∧ SameRegsBut 15 s t ∧ t.i = s.i ∧ SameMemory s t ∧ SameInert s t

/-- The double draw, which the spec marks as derived (45_drw.md: "executed twice in succession"): the same draw twice
restores every cell; the second collision flag is 1 exactly if the first draw left one of the sprite's cells at 1,
which is exactly if one of them was 0 before. On a blank screen the first flag is 0 and the second 1 if the sprite has
a set bit, both 0 if not; if every sprite cell was 1 the second flag is 0. -/
def Obligations.DoubleDrawRestoresTheScreen : Prop :=
  ∀ (ignored : Byte) (n : BitVec 4) (s : State), ∃ t u,
    exec (.drw ignored n) s = .next t ∧ exec (.drw ignored n) t = .next u ∧
    SameScreen s u ∧
    (u.reg 15 = 1 ↔ ∃ row col, SpriteCovers s n row col ∧ t.cell row col = true) ∧
    (u.reg 15 = 1 ↔ ∃ row col, SpriteCovers s n row col ∧ s.cell row col = false) ∧
    ((∀ row col, s.cell row col = false) →
      t.reg 15 = 0 ∧ ((∃ row col, SpriteCovers s n row col) → u.reg 15 = 1)) ∧
    ((∀ row col, ¬ SpriteCovers s n row col) → t.reg 15 = 0 ∧ u.reg 15 = 0) ∧
    ((∃ row col, SpriteCovers s n row col) → (∀ row col, SpriteCovers s n row col → s.cell row col = true) →
      t.reg 15 = 1 ∧ u.reg 15 = 0)

/-- What a draw reads (R36, R72): V0, V1, I, PC, the framebuffer and the n sprite bytes. Two states that agree on
these get the same framebuffer, flag and PC. -/
def Obligations.DrawReadsOnlyItsSprite : Prop :=
  ∀ (ignored ignored' : Byte) (n : BitVec 4) (s s' t t' : State),
    s'.reg 0 = s.reg 0 → s'.reg 1 = s.reg 1 → s'.pc = s.pc → SameScreen s s' →
    (∀ r, r < n.toNat → s'.byteAt (s'.i.toNat + r) = s.byteAt (s.i.toNat + r)) →
    exec (.drw ignored n) s = .next t → exec (.drw ignored' n) s' = .next t' →
    SameScreen t t' ∧ t'.reg 15 = t.reg 15 ∧ t'.pc = t.pc

/-- R75: the step on a word that fits no family answers the same state, PC included, and raises the report with that
word and a render request. -/
def Obligations.UnknownOpcodeChangesNothing : Prop :=
  (∀ (op : Word) (s : State), exec (.unknown op) s = .next s) ∧
  ∀ s : State, s.life = .running → fitsNoFamily (s.wordAt s.pc.toNat) = true →
    step s = .next s ∧ s.stepOutputs.unknownOpcode = some (s.wordAt s.pc.toNat) ∧ s.stepOutputs.renderRequest = true

/-! ### Outputs (R10, R61, R66) -/

/-- R61, R66: a running step requests a render exactly if it executes CLS, DRW or an unknown opcode (R10; for CLS the
spec's decision D14), and reports the fetched word exactly if the word fits no family. JP, LD Vx, ADD Vx and LD I
raise no output and leave the framebuffer as it is. The pulse changes no state: outputs are no part of State (log 7).
-/
def Obligations.OutputsOfAStep : Prop :=
  ∀ s : State, s.life = .running →
    (s.stepOutputs.renderRequest = true ↔
      s.wordAt s.pc.toNat = 0x00E0 ∨ (s.wordAt s.pc.toNat).toNat / 4096 = 0xD ∨
        fitsNoFamily (s.wordAt s.pc.toNat) = true) ∧
    (∀ op, s.stepOutputs.unknownOpcode = some op ↔
      fitsNoFamily (s.wordAt s.pc.toNat) = true ∧ op = s.wordAt s.pc.toNat) ∧
    ((s.wordAt s.pc.toNat).toNat / 4096 = 0x1 ∨ (s.wordAt s.pc.toNat).toNat / 4096 = 0x6 ∨
        (s.wordAt s.pc.toNat).toNat / 4096 = 0x7 ∨ (s.wordAt s.pc.toNat).toNat / 4096 = 0xA →
      s.stepOutputs = { renderRequest := false, unknownOpcode := none } ∧
        ∃ t, step s = .next t ∧ SameScreen s t)

/-! ### The program counter and runs (R17, R63, R76, R105) -/

/-- R17: how a running step changes PC, by the fetched word; PC stays a valid memory address. -/
def Obligations.ProgramCounterOfAStep : Prop :=
  ∀ s : State, s.life = .running → ∃ t, step s = .next t ∧
    (fitsNoFamily s.fetchWord = true → t.pc = s.pc) ∧
    (s.fetchWord.toNat / 4096 = 0x1 → t.pc.toNat = s.fetchWord.toNat % 4096) ∧
    (fitsNoFamily s.fetchWord = false → s.fetchWord.toNat / 4096 ≠ 0x1 → PcAdvanced s t) ∧
    (s.pc.toNat ≤ 0x0FFF → t.pc.toNat ≤ 0x0FFF)

/-- The self-jump, which the spec marks as derived (41_jp.md: "a fixed point of the step function"): a jump to its own
address leaves the whole state as it is for every number of steps, and raises no output. -/
def Obligations.SelfJumpIsAFixedPoint : Prop :=
  ∀ s : State, s.life = .running → AtSelfJump s →
    s.stepOutputs = { renderRequest := false, unknownOpcode := none } ∧ ∀ k, runSteps k s = .next s

/-- The unknown opcode holds the machine for ever, and every step raises its report (46_unknown.md, marked there as
derived). -/
def Obligations.UnknownOpcodeHoldsTheMachine : Prop :=
  ∀ s : State, s.life = .running → AtUnknownOpcode s →
    ∀ k, runSteps k s = .next s ∧ s.stepOutputs.unknownOpcode = some (s.wordAt s.pc.toNat)

/-- The fixed points of a running machine at a valid address are the self-jump and the unknown opcode
(70_reset_and_hazards.md: "Two kinds of state are fixed points of the step function", marked there as derived), and no
other (the model's own addition); the first raises no output, the second the report and a render request. -/
def Obligations.FixedPointsAreSelfJumpOrUnknown : Prop :=
  ∀ s : State, s.life = .running → s.pc.toNat ≤ 0x0FFF →
    (step s = .next s ↔ AtSelfJump s ∨ AtUnknownOpcode s) ∧
    (AtSelfJump s → s.stepOutputs.renderRequest = false ∧ s.stepOutputs.unknownOpcode = none) ∧
    (AtUnknownOpcode s → s.stepOutputs.renderRequest = true ∧ s.stepOutputs.unknownOpcode.isSome = true)

/-! ### Whole-machine rules -/

/-- No instruction stops, no run of a running machine does, and LIFE stays RUNNING through every step (R98). -/
def Obligations.NoRunningStepStops : Prop :=
  (∀ (i : Instr) (s : State), ∃ t, exec i s = .next t) ∧
  ∀ (s : State) (k : Nat), s.life = .running → ∃ t, runSteps k s = .next t ∧ t.life = .running

/-- The writers of each piece of state in a step (10_state.md section 8): a register changes only under LD Vx or ADD
Vx of its own index, or VF under DRW; I only under LD I; PC under all but the unknown opcode; the framebuffer only
under CLS and DRW; memory, the stack, SP, the timers and LIFE under nothing. -/
def Obligations.WritersOfEachPieceOfState : Prop :=
  ∀ (i : Instr) (s t : State), exec i s = .next t →
    (∀ x, t.reg x ≠ s.reg x →
      (∃ kk, i = .ldVx x kk) ∨ (∃ kk, i = .addVx x kk) ∨ (x = 15 ∧ ∃ g n, i = .drw g n)) ∧
    (t.i ≠ s.i → ∃ nnn, i = .ldI nnn) ∧
    (t.pc ≠ s.pc → ∀ op, i ≠ .unknown op) ∧
    (¬ SameScreen s t → i = .cls ∨ ∃ g n, i = .drw g n) ∧
    SameMemory s t ∧ SameInert s t

/-- The call stack, SP and the two timers are read by nothing (R28): changing them changes no other part of a step's
result and no output. -/
def Obligations.InertStateIsNeverRead : Prop :=
  ∀ (s t : State) (stack : Vector Word 16) (sp dt st : Byte), step s = .next t →
    step { s with stack := stack, sp := sp, dt := dt, st := st } =
      .next { t with stack := stack, sp := sp, dt := dt, st := st } ∧
    State.stepOutputs { s with stack := stack, sp := sp, dt := dt, st := st } = s.stepOutputs

/-- There is no conditional instruction (70_reset_and_hazards.md section 5, item (e), marked there as derived): the
path of PC through a run depends on memory and the starting PC alone, whatever the registers, I and the framebuffer
hold. -/
def Obligations.ControlFlowIgnoresData : Prop :=
  ∀ (s s' t t' : State) (k : Nat), SameMemory s s' → s'.pc = s.pc →
    runSteps k s = .next t → runSteps k s' = .next t' → t'.pc = t.pc

/-! ### Invariants (R29) -/

/-- The reset state meets the invariant. -/
def Obligations.ResetMeetsTheInvariant : Prop := Inv State.reset

/-- Every step keeps the invariant, from every state that meets it. -/
def Obligations.StepKeepsTheInvariant : Prop :=
  ∀ s t : State, Inv s → step s = .next t → Inv t

/-- Construction gives the invariant, and a load keeps it. -/
def Obligations.ConstructAndLoadMeetTheInvariant : Prop :=
  (∀ font : Font, Inv (construct font)) ∧
  ∀ (s t : State) (image : List Byte), Inv s → load image s = .next t → Inv t

/-- The invariants of 10_state.md section 9 (in part marked there as derived): in every state reached from a load by
any number of steps, for every font and every nonempty image; and such a run never stops. -/
def Obligations.ReachableStates : Prop :=
  ∀ (font : Font) (image : List Byte) (k : Nat), image ≠ [] →
    ∃ s t, load image (construct font) = .next s ∧ bootAndRun font image k = .next t ∧
      t.pc.toNat ≤ 0x0FFF ∧ t.i.toNat ≤ 0x0FFF ∧ t.sp = 0 ∧ t.dt = 0 ∧ t.st = 0 ∧ (∀ j, t.stackEntry j = 0) ∧
      SameMemory s t ∧ t.life = .running

/-! ### The monitor (R77) -/

/-- The sticky bit that 46_unknown.md suggests to a model stands outside the state: a monitored run ends in the state
of the plain run, and its bit is set exactly if some step of the run stood at an unknown opcode. -/
def Obligations.MonitorRecordsUnknownOpcodes : Prop :=
  ∀ (s t : State) (k : Nat), runSteps k s = .next t →
    ∃ b, monitoredRun k { machine := s, reported := false } = .next { machine := t, reported := b } ∧
      (b = true ↔ ∃ j u, j < k ∧ runSteps j s = .next u ∧ AtUnknownOpcode u) ∧
      (SafeRun k s ↔ b = false)
end

