-- ==== Sys2Proof/Laws/State.lean ====
section
/-! SUPPORT. One lemma per field per update of State, and per reading of State per update, so that no proof unfolds a
record update. -/

namespace Sys2Proof.Machine

variable (s : State)

/-! ### `State.setReg` -/

@[simp] theorem State.setReg_v (x : BitVec 4) (b : Byte) : (s.setReg x b).v = s.v.set x.toNat b := rfl
@[simp] theorem State.setReg_i (x : BitVec 4) (b : Byte) : (s.setReg x b).i = s.i := rfl
@[simp] theorem State.setReg_pc (x : BitVec 4) (b : Byte) : (s.setReg x b).pc = s.pc := rfl
@[simp] theorem State.setReg_stack (x : BitVec 4) (b : Byte) : (s.setReg x b).stack = s.stack := rfl
@[simp] theorem State.setReg_sp (x : BitVec 4) (b : Byte) : (s.setReg x b).sp = s.sp := rfl
@[simp] theorem State.setReg_dt (x : BitVec 4) (b : Byte) : (s.setReg x b).dt = s.dt := rfl
@[simp] theorem State.setReg_st (x : BitVec 4) (b : Byte) : (s.setReg x b).st = s.st := rfl
@[simp] theorem State.setReg_mem (x : BitVec 4) (b : Byte) : (s.setReg x b).mem = s.mem := rfl
@[simp] theorem State.setReg_fb (x : BitVec 4) (b : Byte) : (s.setReg x b).fb = s.fb := rfl
@[simp] theorem State.setReg_life (x : BitVec 4) (b : Byte) : (s.setReg x b).life = s.life := rfl
@[simp] theorem State.byteAt_setReg (x : BitVec 4) (b : Byte) (addr : Nat) : (s.setReg x b).byteAt addr = s.byteAt addr := rfl
@[simp] theorem State.wordAt_setReg (x : BitVec 4) (b : Byte) (addr : Nat) : (s.setReg x b).wordAt addr = s.wordAt addr := rfl
@[simp] theorem State.stackEntry_setReg (x : BitVec 4) (b : Byte) (k : BitVec 4) : (s.setReg x b).stackEntry k = s.stackEntry k := rfl
@[simp] theorem State.cell_setReg (x : BitVec 4) (b : Byte) (row : Fin 32) (col : Fin 64) : (s.setReg x b).cell row col = s.cell row col := rfl

/-! ### `State.setI` -/

@[simp] theorem State.setI_v (w : Word) : (s.setI w).v = s.v := rfl
@[simp] theorem State.setI_i (w : Word) : (s.setI w).i = w := rfl
@[simp] theorem State.setI_pc (w : Word) : (s.setI w).pc = s.pc := rfl
@[simp] theorem State.setI_stack (w : Word) : (s.setI w).stack = s.stack := rfl
@[simp] theorem State.setI_sp (w : Word) : (s.setI w).sp = s.sp := rfl
@[simp] theorem State.setI_dt (w : Word) : (s.setI w).dt = s.dt := rfl
@[simp] theorem State.setI_st (w : Word) : (s.setI w).st = s.st := rfl
@[simp] theorem State.setI_mem (w : Word) : (s.setI w).mem = s.mem := rfl
@[simp] theorem State.setI_fb (w : Word) : (s.setI w).fb = s.fb := rfl
@[simp] theorem State.setI_life (w : Word) : (s.setI w).life = s.life := rfl
@[simp] theorem State.byteAt_setI (w : Word) (addr : Nat) : (s.setI w).byteAt addr = s.byteAt addr := rfl
@[simp] theorem State.wordAt_setI (w : Word) (addr : Nat) : (s.setI w).wordAt addr = s.wordAt addr := rfl
@[simp] theorem State.stackEntry_setI (w : Word) (k : BitVec 4) : (s.setI w).stackEntry k = s.stackEntry k := rfl
@[simp] theorem State.cell_setI (w : Word) (row : Fin 32) (col : Fin 64) : (s.setI w).cell row col = s.cell row col := rfl
@[simp] theorem State.reg_setI (w : Word) (y : BitVec 4) : (s.setI w).reg y = s.reg y := rfl

/-! ### `State.setPc` -/

@[simp] theorem State.setPc_v (w : Word) : (s.setPc w).v = s.v := rfl
@[simp] theorem State.setPc_i (w : Word) : (s.setPc w).i = s.i := rfl
@[simp] theorem State.setPc_pc (w : Word) : (s.setPc w).pc = w := rfl
@[simp] theorem State.setPc_stack (w : Word) : (s.setPc w).stack = s.stack := rfl
@[simp] theorem State.setPc_sp (w : Word) : (s.setPc w).sp = s.sp := rfl
@[simp] theorem State.setPc_dt (w : Word) : (s.setPc w).dt = s.dt := rfl
@[simp] theorem State.setPc_st (w : Word) : (s.setPc w).st = s.st := rfl
@[simp] theorem State.setPc_mem (w : Word) : (s.setPc w).mem = s.mem := rfl
@[simp] theorem State.setPc_fb (w : Word) : (s.setPc w).fb = s.fb := rfl
@[simp] theorem State.setPc_life (w : Word) : (s.setPc w).life = s.life := rfl
@[simp] theorem State.byteAt_setPc (w : Word) (addr : Nat) : (s.setPc w).byteAt addr = s.byteAt addr := rfl
@[simp] theorem State.wordAt_setPc (w : Word) (addr : Nat) : (s.setPc w).wordAt addr = s.wordAt addr := rfl
@[simp] theorem State.stackEntry_setPc (w : Word) (k : BitVec 4) : (s.setPc w).stackEntry k = s.stackEntry k := rfl
@[simp] theorem State.cell_setPc (w : Word) (row : Fin 32) (col : Fin 64) : (s.setPc w).cell row col = s.cell row col := rfl
@[simp] theorem State.reg_setPc (w : Word) (y : BitVec 4) : (s.setPc w).reg y = s.reg y := rfl

/-! ### `State.advance` -/

@[simp] theorem State.advance_v : s.advance.v = s.v := rfl
@[simp] theorem State.advance_i : s.advance.i = s.i := rfl
@[simp] theorem State.advance_pc : s.advance.pc = nextPc s.pc := rfl
@[simp] theorem State.advance_stack : s.advance.stack = s.stack := rfl
@[simp] theorem State.advance_sp : s.advance.sp = s.sp := rfl
@[simp] theorem State.advance_dt : s.advance.dt = s.dt := rfl
@[simp] theorem State.advance_st : s.advance.st = s.st := rfl
@[simp] theorem State.advance_mem : s.advance.mem = s.mem := rfl
@[simp] theorem State.advance_fb : s.advance.fb = s.fb := rfl
@[simp] theorem State.advance_life : s.advance.life = s.life := rfl
@[simp] theorem State.byteAt_advance (addr : Nat) : s.advance.byteAt addr = s.byteAt addr := rfl
@[simp] theorem State.wordAt_advance (addr : Nat) : s.advance.wordAt addr = s.wordAt addr := rfl
@[simp] theorem State.stackEntry_advance (k : BitVec 4) : s.advance.stackEntry k = s.stackEntry k := rfl
@[simp] theorem State.cell_advance (row : Fin 32) (col : Fin 64) : s.advance.cell row col = s.cell row col := rfl
@[simp] theorem State.reg_advance (y : BitVec 4) : s.advance.reg y = s.reg y := rfl

/-! ### `State.setFb` -/

@[simp] theorem State.setFb_v (fb : Framebuffer) : (s.setFb fb).v = s.v := rfl
@[simp] theorem State.setFb_i (fb : Framebuffer) : (s.setFb fb).i = s.i := rfl
@[simp] theorem State.setFb_pc (fb : Framebuffer) : (s.setFb fb).pc = s.pc := rfl
@[simp] theorem State.setFb_stack (fb : Framebuffer) : (s.setFb fb).stack = s.stack := rfl
@[simp] theorem State.setFb_sp (fb : Framebuffer) : (s.setFb fb).sp = s.sp := rfl
@[simp] theorem State.setFb_dt (fb : Framebuffer) : (s.setFb fb).dt = s.dt := rfl
@[simp] theorem State.setFb_st (fb : Framebuffer) : (s.setFb fb).st = s.st := rfl
@[simp] theorem State.setFb_mem (fb : Framebuffer) : (s.setFb fb).mem = s.mem := rfl
@[simp] theorem State.setFb_fb (fb : Framebuffer) : (s.setFb fb).fb = fb := rfl
@[simp] theorem State.setFb_life (fb : Framebuffer) : (s.setFb fb).life = s.life := rfl
@[simp] theorem State.byteAt_setFb (fb : Framebuffer) (addr : Nat) : (s.setFb fb).byteAt addr = s.byteAt addr := rfl
@[simp] theorem State.wordAt_setFb (fb : Framebuffer) (addr : Nat) : (s.setFb fb).wordAt addr = s.wordAt addr := rfl
@[simp] theorem State.stackEntry_setFb (fb : Framebuffer) (k : BitVec 4) : (s.setFb fb).stackEntry k = s.stackEntry k := rfl
@[simp] theorem State.reg_setFb (fb : Framebuffer) (y : BitVec 4) : (s.setFb fb).reg y = s.reg y := rfl

/-! ### `State.setCollision` -/

@[simp] theorem State.setCollision_i (hit : Bool) : (s.setCollision hit).i = s.i := rfl
@[simp] theorem State.setCollision_pc (hit : Bool) : (s.setCollision hit).pc = s.pc := rfl
@[simp] theorem State.setCollision_stack (hit : Bool) : (s.setCollision hit).stack = s.stack := rfl
@[simp] theorem State.setCollision_sp (hit : Bool) : (s.setCollision hit).sp = s.sp := rfl
@[simp] theorem State.setCollision_dt (hit : Bool) : (s.setCollision hit).dt = s.dt := rfl
@[simp] theorem State.setCollision_st (hit : Bool) : (s.setCollision hit).st = s.st := rfl
@[simp] theorem State.setCollision_mem (hit : Bool) : (s.setCollision hit).mem = s.mem := rfl
@[simp] theorem State.setCollision_fb (hit : Bool) : (s.setCollision hit).fb = s.fb := rfl
@[simp] theorem State.setCollision_life (hit : Bool) : (s.setCollision hit).life = s.life := rfl
@[simp] theorem State.byteAt_setCollision (hit : Bool) (addr : Nat) : (s.setCollision hit).byteAt addr = s.byteAt addr := rfl
@[simp] theorem State.wordAt_setCollision (hit : Bool) (addr : Nat) : (s.setCollision hit).wordAt addr = s.wordAt addr := rfl
@[simp] theorem State.stackEntry_setCollision (hit : Bool) (k : BitVec 4) : (s.setCollision hit).stackEntry k = s.stackEntry k := rfl
@[simp] theorem State.cell_setCollision (hit : Bool) (row : Fin 32) (col : Fin 64) : (s.setCollision hit).cell row col = s.cell row col := rfl

/-! ### `State.reportUnknownOpcode` -/

@[simp] theorem State.reportUnknownOpcode_v (op : Word) : (s.reportUnknownOpcode op).v = s.v := rfl
@[simp] theorem State.reportUnknownOpcode_i (op : Word) : (s.reportUnknownOpcode op).i = s.i := rfl
@[simp] theorem State.reportUnknownOpcode_pc (op : Word) : (s.reportUnknownOpcode op).pc = s.pc := rfl
@[simp] theorem State.reportUnknownOpcode_stack (op : Word) : (s.reportUnknownOpcode op).stack = s.stack := rfl
@[simp] theorem State.reportUnknownOpcode_sp (op : Word) : (s.reportUnknownOpcode op).sp = s.sp := rfl
@[simp] theorem State.reportUnknownOpcode_dt (op : Word) : (s.reportUnknownOpcode op).dt = s.dt := rfl
@[simp] theorem State.reportUnknownOpcode_st (op : Word) : (s.reportUnknownOpcode op).st = s.st := rfl
@[simp] theorem State.reportUnknownOpcode_mem (op : Word) : (s.reportUnknownOpcode op).mem = s.mem := rfl
@[simp] theorem State.reportUnknownOpcode_fb (op : Word) : (s.reportUnknownOpcode op).fb = s.fb := rfl
@[simp] theorem State.reportUnknownOpcode_life (op : Word) : (s.reportUnknownOpcode op).life = s.life := rfl
@[simp] theorem State.byteAt_reportUnknownOpcode (op : Word) (addr : Nat) : (s.reportUnknownOpcode op).byteAt addr = s.byteAt addr := rfl
@[simp] theorem State.wordAt_reportUnknownOpcode (op : Word) (addr : Nat) : (s.reportUnknownOpcode op).wordAt addr = s.wordAt addr := rfl
@[simp] theorem State.stackEntry_reportUnknownOpcode (op : Word) (k : BitVec 4) : (s.reportUnknownOpcode op).stackEntry k = s.stackEntry k := rfl
@[simp] theorem State.cell_reportUnknownOpcode (op : Word) (row : Fin 32) (col : Fin 64) : (s.reportUnknownOpcode op).cell row col = s.cell row col := rfl
@[simp] theorem State.reg_reportUnknownOpcode (op : Word) (y : BitVec 4) : (s.reportUnknownOpcode op).reg y = s.reg y := rfl

@[simp] theorem State.cell_setFb (fb : Framebuffer) (row : Fin 32) (col : Fin 64) :
    (s.setFb fb).cell row col = cellOf fb row col := rfl

/-! ### Registers after a register write (R13) -/

@[simp] theorem State.reg_setReg_same (x : BitVec 4) (b : Byte) : (s.setReg x b).reg x = b := by
  simp [State.reg]

theorem State.reg_setReg_ne {x y : BitVec 4} (h : y ≠ x) (b : Byte) : (s.setReg x b).reg y = s.reg y := by
  have : x.toNat ≠ y.toNat := fun e => h (BitVec.eq_of_toNat_eq e.symm)
  simp [State.reg, Vector.getElem_set_ne, this]

@[simp] theorem State.reg_setCollision_flag (hit : Bool) : (s.setCollision hit).reg 15#4 = collisionFlag hit :=
  State.reg_setReg_same s 15 _

theorem State.reg_setCollision_ne {y : BitVec 4} (h : y ≠ 15) (hit : Bool) :
    (s.setCollision hit).reg y = s.reg y :=
  State.reg_setReg_ne s h _

/-! ### Readings and fields -/

theorem State.byteAt_eq_of_mem {s t : State} (h : t.mem = s.mem) (addr : Nat) : t.byteAt addr = s.byteAt addr := by
  simp [State.byteAt, h]

theorem State.wordAt_eq_of_mem {s t : State} (h : t.mem = s.mem) (addr : Nat) : t.wordAt addr = s.wordAt addr := by
  simp [State.wordAt, h]

/-- Two register files that read alike are equal. -/
theorem State.v_eq_of_reg {s t : State} (h : SameRegs s t) : t.v = s.v := by
  apply Vector.ext
  intro k hk
  have := h (BitVec.ofNat 4 k)
  simpa [State.reg, Nat.mod_eq_of_lt hk] using this

/-- Two framebuffers that read alike are equal. -/
theorem State.fb_eq_of_cell {s t : State} (h : SameScreen s t) : t.fb = s.fb := by
  apply Vector.ext
  intro r hr
  apply Vector.ext
  intro c hc
  exact h ⟨r, hr⟩ ⟨c, hc⟩

/-- Two call stacks that read alike are equal. -/
theorem State.stack_eq_of_entry {s t : State} (h : ∀ k, t.stackEntry k = s.stackEntry k) : t.stack = s.stack := by
  apply Vector.ext
  intro k hk
  have := h (BitVec.ofNat 4 k)
  simpa [State.stackEntry, Nat.mod_eq_of_lt hk] using this

/-! ### The program counter (R17) -/

@[simp] theorem nextPc_toNat (pc : Word) : (nextPc pc).toNat = (pc.toNat + 2) % 4096 := by
  simp only [nextPc, Config.insnLen, Config.memSize, BitVec.toNat_ofNat]
  omega

theorem pcAdvanced_of_pc {s t : State} (h : t.pc = nextPc s.pc) : PcAdvanced s t := by
  simp [PcAdvanced, h]

@[simp] theorem zextAddress_toNat (nnn : BitVec 12) : (zextAddress nnn).toNat = nnn.toNat := by
  simp only [zextAddress, BitVec.toNat_setWidth]
  have := nnn.isLt
  omega

/-! ### The byte sum (R68) -/

theorem addByte_eq_add (a b : Byte) : addByte a b = a + b := by
  apply BitVec.eq_of_toNat_eq
  simp [addByte, BitVec.toNat_add]

theorem addByte_toNat (a b : Byte) : (addByte a b).toNat = (a.toNat + b.toNat) % 256 := by
  simp [addByte]

end Sys2Proof.Machine
end

