-- ==== Sys2Proof/Laws/Memory.lean ====
section
/-! SUPPORT. Memory: reading after writing, and the canonical form kept by every operation (R33, R34). -/

namespace Sys2Proof.Machine

@[simp] theorem Config.memSize_eq : Config.memSize = 4096 := rfl
@[simp] theorem Config.progBase_eq : Config.progBase = 0x200 := rfl
@[simp] theorem Config.progMax_eq : Config.progMax = 3584 := rfl
@[simp] theorem Config.fontBase_eq : Config.fontBase = 0 := rfl
@[simp] theorem Config.fontLen_eq : Config.fontLen = 80 := rfl

/-- An address above the font region reads as zero when memory does not list it. -/
theorem Memory.unlisted_of_ge {a : Nat} (h : 80 ≤ a) : Memory.unlisted a = 0 := by
  have hlen : defaultFontBytes.length = 80 := rfl
  simp [Memory.unlisted, List.getD_eq_getElem?_getD, List.getElem?_eq_none (hlen ▸ h)]

/-! ### The canonical form -/

theorem Memory.wf_nil : Memory.wf [] := by simp [Memory.wf]

theorem Memory.wf_tail {c : Host.Cell} {m : Memory} (h : Memory.wf (c :: m)) : Memory.wf m :=
  ⟨(List.pairwise_cons.mp h.1).2, fun d hd => h.2 d (List.mem_cons_of_mem _ hd)⟩

theorem Memory.wf_head_lt {c : Host.Cell} {m : Memory} (h : Memory.wf (c :: m)) : ∀ d ∈ m, c.1 < d.1 :=
  (List.pairwise_cons.mp h.1).1

theorem Memory.wf_cons {c : Host.Cell} {m : Memory} (hm : Memory.wf m) (hlt : ∀ d ∈ m, c.1 < d.1)
    (hc : c.1 < Config.memSize ∧ c.2 ≠ Memory.unlisted c.1) : Memory.wf (c :: m) :=
  ⟨List.pairwise_cons.mpr ⟨hlt, hm.1⟩, fun d hd => by
    rcases List.mem_cons.mp hd with rfl | hd
    · exact hc
    · exact hm.2 d hd⟩

/-- Below every listed address, memory reads as unlisted. -/
theorem Memory.byteOf_of_forall_lt {m : Memory} {a : Nat} (h : ∀ d ∈ m, a < d.1) :
    m.byteOf a = Memory.unlisted a := by
  induction m with
  | nil => rfl
  | cons c m ih =>
    have hc := h c (List.mem_cons_self ..)
    simp only [Memory.byteOf, if_neg (Nat.ne_of_lt hc)]
    exact ih fun d hd => h d (List.mem_cons_of_mem _ hd)

/-- Every cell of a memory after `put` is the new one or was there. -/
theorem Memory.mem_put {m : Memory} {a : Nat} {w : Byte} {d : Host.Cell} (h : d ∈ m.put a w) :
    d ∈ m ∨ (d = (a, w) ∧ w ≠ Memory.unlisted a) := by
  induction m with
  | nil =>
    simp only [Memory.put] at h
    split at h <;> simp_all
  | cons c m ih =>
    obtain ⟨b, u⟩ := c
    simp only [Memory.put] at h
    split at h
    · split at h
      · exact .inl h
      · rcases List.mem_cons.mp h with rfl | h
        · exact .inr ⟨rfl, ‹_›⟩
        · exact .inl h
    · split at h
      · split at h
        · exact .inl (List.mem_cons_of_mem _ h)
        · rcases List.mem_cons.mp h with rfl | h
          · exact .inr ⟨rfl, ‹_›⟩
          · exact .inl (List.mem_cons_of_mem _ h)
      · rcases List.mem_cons.mp h with rfl | h
        · exact .inl (List.mem_cons_self ..)
        · rcases ih h with h | h
          · exact .inl (List.mem_cons_of_mem _ h)
          · exact .inr h

/-- `put` keeps the canonical form. -/
theorem Memory.wf_put {m : Memory} (h : Memory.wf m) {a : Nat} (ha : a < Config.memSize) (w : Byte) :
    Memory.wf (m.put a w) := by
  induction m with
  | nil =>
    simp only [Memory.put]
    split
    · exact h
    · exact Memory.wf_cons h (by simp) ⟨ha, ‹_›⟩
  | cons c m ih =>
    obtain ⟨b, u⟩ := c
    have ht := Memory.wf_tail h
    have hl := Memory.wf_head_lt h
    simp only [Memory.put]
    split
    · split
      · exact h
      · refine Memory.wf_cons h ?_ ⟨ha, ‹_›⟩
        intro d hd
        rcases List.mem_cons.mp hd with rfl | hd
        · assumption
        · exact Nat.lt_trans ‹a < b› (hl d hd)
    · split
      · subst a
        split
        · exact ht
        · exact Memory.wf_cons ht hl ⟨ha, ‹_›⟩
      · refine Memory.wf_cons (ih ht) ?_ (h.2 _ (List.mem_cons_self ..))
        intro d hd
        rcases Memory.mem_put hd with hd | ⟨rfl, -⟩
        · exact hl d hd
        · show b < a
          omega

/-- A lookup after a put, at every address. -/
theorem Memory.byteOf_put {m : Memory} (h : Memory.wf m) (a b : Nat) (w : Byte) :
    (m.put a w).byteOf b = if b = a then w else m.byteOf b := by
  induction m with
  | nil =>
    simp only [Memory.put]
    split <;> simp_all [Memory.byteOf]
  | cons c m ih =>
    obtain ⟨k, u⟩ := c
    have hl := Memory.wf_head_lt h
    have ih := ih (Memory.wf_tail h)
    simp only [Memory.put]
    split
    · rename_i hlt
      have hun : Memory.byteOf ((k, u) :: m) a = Memory.unlisted a := by
        apply Memory.byteOf_of_forall_lt
        intro d hd
        rcases List.mem_cons.mp hd with rfl | hd
        · exact hlt
        · exact Nat.lt_trans hlt (hl d hd)
      split
      · split
        · subst b; rw [hun]; exact (‹w = _›).symm
        · rfl
      · rfl
    · split
      · subst a
        have hun : Memory.byteOf m k = Memory.unlisted k := Memory.byteOf_of_forall_lt hl
        split
        · by_cases hb : b = k
          · subst hb; simp [hun, ‹w = _›]
          · simp [Memory.byteOf, hb]
        · by_cases hb : b = k <;> simp [Memory.byteOf, hb]
      · simp only [Memory.byteOf, ih]
        split
        · have : b ≠ a := by omega
          simp [this]
        · rfl

/-! ### MemRead and MemWrite (R33, R34) -/

/-- `MemWrite` keeps the canonical form. -/
theorem Memory.wf_write {m : Memory} (h : Memory.wf m) (addr : Nat) (b : Byte) : Memory.wf (m.write addr b) :=
  Memory.wf_put h (Nat.mod_lt _ (by decide)) b

/-- `MemRead` after `MemWrite`: the byte written at the same address modulo 4096, the old byte elsewhere. -/
theorem Memory.read_write {m : Memory} (h : Memory.wf m) (addr addr' : Nat) (b : Byte) :
    (m.write addr b).read addr' = if addr' % 4096 = addr % 4096 then b else m.read addr' :=
  Memory.byteOf_put h _ _ b

theorem Memory.read_mod (m : Memory) (addr : Nat) : m.read (addr % 4096) = m.read addr := by
  simp [Memory.read]

/-- The bytes of a fetched word, high byte first (R32). -/
theorem Memory.read2_toNat (m : Memory) (addr : Nat) :
    (m.read2 addr).toNat = (m.read addr).toNat * 256 + (m.read (addr + 1)).toNat := by
  have := (m.read (addr + 1)).isLt
  simp only [Memory.read2, BitVec.toNat_append, Nat.shiftLeft_eq]
  rw [Nat.mul_comm, ← Nat.two_pow_add_eq_or_of_lt this, Nat.mul_comm]

/-- A run of byte writes keeps the canonical form. -/
theorem Memory.wf_writeBytes {m : Memory} (h : Memory.wf m) (addr : Nat) (bs : List Byte) :
    Memory.wf (m.writeBytes addr bs) := by
  induction bs generalizing addr with
  | nil => exact h
  | cons b bs ih => exact Memory.wf_write (ih (addr + 1)) addr b

/-- Reading after a run of byte writes that does not wrap. -/
theorem Memory.read_writeBytes {m : Memory} (h : Memory.wf m) (addr : Nat) (bs : List Byte)
    (hfit : addr + bs.length ≤ 4096) (a : Nat) (ha : a < 4096) :
    (m.writeBytes addr bs).read a =
      if addr ≤ a ∧ a < addr + bs.length then bs.getD (a - addr) 0 else m.read a := by
  induction bs generalizing addr with
  | nil =>
    have hout : ¬ (addr ≤ a ∧ a < addr + ([] : List Byte).length) := by simp
    rw [if_neg hout]
    rfl
  | cons b bs ih =>
    simp only [List.length_cons] at hfit
    have haddr : addr % 4096 = addr := Nat.mod_eq_of_lt (by omega)
    rw [Memory.writeBytes, Memory.read_write (Memory.wf_writeBytes h _ _), haddr, Nat.mod_eq_of_lt ha,
      ih (addr + 1) (by omega)]
    by_cases hEq : a = addr
    · subst hEq; simp
    · by_cases hin : addr + 1 ≤ a ∧ a < addr + 1 + bs.length
      · have hin' : addr ≤ a ∧ a < addr + (bs.length + 1) := by omega
        obtain ⟨k, rfl⟩ : ∃ k, a = addr + 1 + k := ⟨a - (addr + 1), by omega⟩
        have h1 : addr + 1 + k - (addr + 1) = k := by omega
        have h2 : addr + 1 + k - addr = k + 1 := by omega
        rw [if_neg hEq, if_pos hin, List.length_cons, if_pos hin', h1, h2, List.getD_cons_succ]
      · have hout : ¬ (addr ≤ a ∧ a < addr + (bs.length + 1)) := by omega
        rw [if_neg hEq, if_neg hin, List.length_cons, if_neg hout]

/-! ### The construction memory (R92, R93) -/

theorem Memory.wf_zeroed : Memory.wf Memory.zeroed := Memory.wf_writeBytes Memory.wf_nil _ _

theorem Memory.wf_withFont (font : Font) : Memory.wf (Memory.withFont font) :=
  Memory.wf_writeBytes Memory.wf_zeroed _ _

end Sys2Proof.Machine
end

