-- ==== Sys2Proof/Laws/Screen.lean ====
section
/-! SUPPORT. The loop of the pseudocode, the framebuffer's cells, and what each part of the draw does to one cell and
to the collision (R72). -/

namespace Sys2Proof.Machine

/-! ### The loop (R12) -/

@[simp] theorem forUpTo_zero {α : Type} (body : Nat → α → α) (a : α) : forUpTo 0 body a = a := rfl

theorem forUpTo_succ {α : Type} (n : Nat) (body : Nat → α → α) (a : α) :
    forUpTo (n + 1) body a = body n (forUpTo n body a) := rfl

/-- A property that holds before a loop and is kept by each round holds after it. -/
theorem forUpTo_induction {α : Type} (P : Nat → α → Prop) {n : Nat} {body : Nat → α → α} {a : α}
    (start : P 0 a) (round : ∀ k b, k < n → P k b → P (k + 1) (body k b)) : P n (forUpTo n body a) := by
  induction n with
  | zero => exact start
  | succ n ih => exact round n _ (Nat.lt_succ_self n) (ih fun k b hk => round k b (Nat.lt_succ_of_lt hk))

/-! ### Cells (R23) -/

@[simp] theorem cellOf_blankScreen (row : Fin 32) (col : Fin 64) : cellOf blankScreen row col = false := by
  simp [cellOf, blankScreen]

/-- A toggle changes its own cell and no other. -/
theorem cellOf_toggleCell (fb : Framebuffer) (row row' : Fin 32) (col col' : Fin 64) :
    cellOf (toggleCell fb row col) row' col' =
      if row' = row ∧ col' = col then !cellOf fb row' col' else cellOf fb row' col' := by
  by_cases hr : row' = row
  · subst hr
    by_cases hc : col' = col
    · subst hc; simp [cellOf, toggleCell]
    · have : col.val ≠ col'.val := fun e => hc (Fin.ext e.symm)
      simp [cellOf, toggleCell, hc, Vector.getElem_set_ne, this]
  · have : row.val ≠ row'.val := fun e => hr (Fin.ext e.symm)
    simp [cellOf, toggleCell, hr, Vector.getElem_set_ne, this]

/-! ### The draw's addresses (R72) -/

@[simp] theorem spriteRow_val (y : Byte) (r : Nat) : (spriteRow y r).val = (y.toNat + r) % 32 := rfl

@[simp] theorem spriteColumn_val (x : Byte) (c : Nat) : (spriteColumn x c).val = (x.toNat + c) % 64 := rfl

/-! ### One bit of the draw (R72 steps 3 to 5) -/

/-- A sprite bit toggles the one cell it falls on, and only if it is set. -/
theorem Canvas.drawBit_cell (cv : Canvas) (x y : Byte) (r : Nat) (b : Byte) (c : Nat) (row : Fin 32) (col : Fin 64) :
    cellOf (cv.drawBit x y r b c).fb row col =
      if spriteBit b c = true ∧ row = spriteRow y r ∧ col = spriteColumn x c then !cellOf cv.fb row col
      else cellOf cv.fb row col := by
  unfold Canvas.drawBit
  split
  · simp [Canvas.strike, cellOf_toggleCell, *]
  · simp [*]

/-- A sprite bit records a collision if it is set and its cell is 1. -/
theorem Canvas.drawBit_hit (cv : Canvas) (x y : Byte) (r : Nat) (b : Byte) (c : Nat) :
    (cv.drawBit x y r b c).hit =
      (cv.hit || (spriteBit b c && cellOf cv.fb (spriteRow y r) (spriteColumn x c))) := by
  unfold Canvas.drawBit
  split <;> simp [Canvas.strike, *]

/-! ### What a draw reads (R36, R72) -/

/-- The canvas of a draw depends on the sprite's first `n` bytes alone. -/
theorem Canvas.drawSprite_congr {x y : Byte} {sprite sprite' : Nat → Byte} {n : Nat}
    (h : ∀ r, r < n → sprite r = sprite' r) (cv : Canvas) :
    cv.drawSprite x y sprite n = cv.drawSprite x y sprite' n := by
  unfold Canvas.drawSprite
  induction n with
  | zero => rfl
  | succ n ih =>
    rw [forUpTo_succ, forUpTo_succ, ih fun r hr => h r (Nat.lt_succ_of_lt hr), h n (Nat.lt_succ_self n)]

end Sys2Proof.Machine
end

