-- ==== Sys2Proof/Laws/Decode.lean ====
section
/-! SUPPORT. Fields of a word as arithmetic on its number, fields of an encoded word, and what the decoder reads. -/

namespace Sys2Proof

/-! ### Fields as arithmetic (R46) -/

@[simp] theorem opFam_toNat (op : Word) : (opFam op).toNat = op.toNat / 4096 := by
  have := op.isLt
  simp only [opFam, BitVec.extractLsb'_toNat, Nat.shiftRight_eq_div_pow]
  omega

@[simp] theorem opX_toNat (op : Word) : (opX op).toNat = op.toNat / 256 % 16 := by
  simp [opX, BitVec.extractLsb'_toNat, Nat.shiftRight_eq_div_pow]

@[simp] theorem opN_toNat (op : Word) : (opN op).toNat = op.toNat % 16 := by
  simp [opN, BitVec.extractLsb'_toNat]

@[simp] theorem opKk_toNat (op : Word) : (opKk op).toNat = op.toNat % 256 := by
  simp [opKk, BitVec.extractLsb'_toNat]

@[simp] theorem opNnn_toNat (op : Word) : (opNnn op).toNat = op.toNat % 4096 := by
  simp [opNnn, BitVec.extractLsb'_toNat]

@[simp] theorem opIgnored_toNat (op : Word) : (opIgnored op).toNat = op.toNat / 16 % 256 := by
  simp [opIgnored, BitVec.extractLsb'_toNat, Nat.shiftRight_eq_div_pow]

@[simp] theorem highByte_toNat (op : Word) : (highByte op).toNat = op.toNat / 256 := by
  have := op.isLt
  simp only [highByte, BitVec.extractLsb'_toNat, Nat.shiftRight_eq_div_pow]
  omega

@[simp] theorem lowByte_toNat (op : Word) : (lowByte op).toNat = op.toNat % 256 := by
  simp [lowByte, BitVec.extractLsb'_toNat]

/-- A concatenation as arithmetic: `a || b` (R11). -/
theorem append_toNat {m n : Nat} (a : BitVec m) (b : BitVec n) : (a ++ b).toNat = a.toNat * 2 ^ n + b.toNat := by
  rw [BitVec.toNat_append, Nat.shiftLeft_eq, Nat.mul_comm, ← Nat.two_pow_add_eq_or_of_lt b.isLt]

@[simp] theorem wordOfBytes_toNat (hi lo : Byte) : (wordOfBytes hi lo).toNat = hi.toNat * 256 + lo.toNat :=
  append_toNat hi lo

/-- The two bytes of a word make the word again (R32). -/
@[simp] theorem wordOfBytes_bytes (op : Word) : wordOfBytes (highByte op) (lowByte op) = op := by
  apply BitVec.eq_of_toNat_eq
  rw [wordOfBytes_toNat, highByte_toNat, lowByte_toNat]
  omega

@[simp] theorem highByte_wordOfBytes (hi lo : Byte) : highByte (wordOfBytes hi lo) = hi := by
  apply BitVec.eq_of_toNat_eq
  have := lo.isLt
  rw [highByte_toNat, wordOfBytes_toNat]
  omega

@[simp] theorem lowByte_wordOfBytes (hi lo : Byte) : lowByte (wordOfBytes hi lo) = lo := by
  apply BitVec.eq_of_toNat_eq
  have := lo.isLt
  rw [lowByte_toNat, wordOfBytes_toNat]
  omega

/-- The word two bytes of memory make when fetched is the word they make when decoded. -/
theorem Machine.Memory.read2_eq_wordOfBytes (m : Machine.Memory) (addr : Nat) :
    m.read2 addr = wordOfBytes (m.read addr) (m.read (addr + 1)) := rfl

/-! ### The decoder -/

@[simp] theorem decode_two (hi lo : Byte) (rest : List Byte) :
    decode (hi :: lo :: rest) = .ok (decodeWord (wordOfBytes hi lo), rest) := rfl

/-- A nibble equals a number exactly when the word lies in that family's sixteenth of the map (R51). -/
theorem opFam_eq_iff (op : Word) (f : BitVec 4) : opFam op = f ↔ op.toNat / 4096 = f.toNat := by
  rw [← opFam_toNat]
  exact ⟨fun h => h ▸ rfl, fun h => BitVec.eq_of_toNat_eq h⟩

/-- The mask 0xF000 keeps the family nibble and clears the rest. -/
theorem and_familyMask_toNat (op : Word) : (op &&& 0xF000).toNat = op.toNat / 4096 * 4096 := by
  have split : op = (op.extractLsb' 12 4 ++ op.extractLsb' 0 12 : Word) := by
    apply BitVec.eq_of_toNat_eq
    rw [append_toNat, BitVec.extractLsb'_toNat, BitVec.extractLsb'_toNat, Nat.shiftRight_eq_div_pow]
    have := op.isLt
    omega
  have mask : (0xF000 : Word) = ((0xF : BitVec 4) ++ (0 : BitVec 12) : Word) := by decide
  have and_all : op.extractLsb' 12 4 &&& (0xF : BitVec 4) = op.extractLsb' 12 4 := BitVec.and_allOnes
  have and_none : op.extractLsb' 0 12 &&& (0 : BitVec 12) = 0 := BitVec.and_zero
  calc (op &&& 0xF000).toNat
      = ((op.extractLsb' 12 4 ++ op.extractLsb' 0 12 : Word) &&&
          ((0xF : BitVec 4) ++ (0 : BitVec 12) : Word)).toNat := by rw [← split, ← mask]
    _ = (op.extractLsb' 12 4 ++ (0 : BitVec 12) : Word).toNat := by rw [BitVec.and_append, and_all, and_none]
    _ = op.toNat / 4096 * 4096 := by
        rw [append_toNat]
        have fam : (op.extractLsb' 12 4).toNat = op.toNat / 4096 := opFam_toNat op
        simp [fam]

/-- Masked, a word of a family is that family's match (R51). -/
theorem masked_eq_iff (op : Word) (f : BitVec 4) : op &&& 0xF000 = f ++ (0 : BitVec 12) ↔ opFam op = f := by
  have right : (f ++ (0 : BitVec 12) : Word).toNat = f.toNat * 4096 := by rw [append_toNat]; simp
  rw [opFam_eq_iff]
  constructor
  · intro h
    have := congrArg BitVec.toNat h
    rw [and_familyMask_toNat, right] at this
    omega
  · intro h
    apply BitVec.eq_of_toNat_eq
    rw [and_familyMask_toNat, right, h]

/-- The check of `unknown` (WellFormed) in the terms of the dispatch (R50, R51). -/
theorem fitsNoFamily_iff (op : Word) :
    fitsNoFamily op = true ↔ op ≠ 0x00E0 ∧ opFam op ≠ 0x1 ∧ opFam op ≠ 0x6 ∧ opFam op ≠ 0x7 ∧ opFam op ≠ 0xA ∧
      opFam op ≠ 0xD := by
  have e1 := masked_eq_iff op 0x1
  have e6 := masked_eq_iff op 0x6
  have e7 := masked_eq_iff op 0x7
  have eA := masked_eq_iff op 0xA
  have eD := masked_eq_iff op 0xD
  have h0 : op &&& 0xFFFF = op :=
    BitVec.and_allOnes
  simp only [fitsNoFamily, Bool.and_eq_true, bne_iff_ne, h0, ne_eq, and_assoc]
  rw [← e1, ← e6, ← e7, ← eA, ← eD]
  rfl

/-! ### The decoder and the encoder as arithmetic on the word's number -/

theorem eq_clsWord_iff (op : Word) : op = 0x00E0 ↔ op.toNat = 0xE0 :=
  ⟨fun h => by subst h; rfl, fun h => BitVec.eq_of_toNat_eq h⟩

/-- The dispatch of R50 by the number of the word. -/
theorem decodeWord_eq (op : Word) :
    decodeWord op =
      if op.toNat = 0xE0 then .cls
      else if op.toNat / 4096 = 0x1 then .jp (opNnn op)
      else if op.toNat / 4096 = 0x6 then .ldVx (opX op) (opKk op)
      else if op.toNat / 4096 = 0x7 then .addVx (opX op) (opKk op)
      else if op.toNat / 4096 = 0xA then .ldI (opNnn op)
      else if op.toNat / 4096 = 0xD then .drw (opIgnored op) (opN op)
      else .unknown op := by
  simp only [decodeWord, eq_clsWord_iff, opFam_eq_iff]
  rfl

/-- The check of `unknown` by the number of the word. -/
theorem fitsNoFamily_iff_toNat (op : Word) :
    fitsNoFamily op = true ↔ op.toNat ≠ 0xE0 ∧ op.toNat / 4096 ≠ 0x1 ∧ op.toNat / 4096 ≠ 0x6 ∧
      op.toNat / 4096 ≠ 0x7 ∧ op.toNat / 4096 ≠ 0xA ∧ op.toNat / 4096 ≠ 0xD := by
  rw [fitsNoFamily_iff]
  simp only [ne_eq, eq_clsWord_iff, opFam_eq_iff]
  rfl

theorem encodeWord_jp_toNat (nnn : BitVec 12) : (encodeWord (.jp nnn)).toNat = 0x1000 + nnn.toNat := by
  show (0x1#4 ++ nnn).toNat = _
  rw [append_toNat]
  simp

theorem encodeWord_ldVx_toNat (x : BitVec 4) (kk : Byte) :
    (encodeWord (.ldVx x kk)).toNat = 0x6000 + x.toNat * 256 + kk.toNat := by
  show (0x6#4 ++ x ++ kk).toNat = _
  rw [append_toNat, append_toNat]
  simp
  omega

theorem encodeWord_addVx_toNat (x : BitVec 4) (kk : Byte) :
    (encodeWord (.addVx x kk)).toNat = 0x7000 + x.toNat * 256 + kk.toNat := by
  show (0x7#4 ++ x ++ kk).toNat = _
  rw [append_toNat, append_toNat]
  simp
  omega

theorem encodeWord_ldI_toNat (nnn : BitVec 12) : (encodeWord (.ldI nnn)).toNat = 0xA000 + nnn.toNat := by
  show (0xA#4 ++ nnn).toNat = _
  rw [append_toNat]
  simp

theorem encodeWord_drw_toNat (ignored : Byte) (n : BitVec 4) :
    (encodeWord (.drw ignored n)).toNat = 0xD000 + ignored.toNat * 16 + n.toNat := by
  show (0xD#4 ++ ignored ++ n).toNat = _
  rw [append_toNat, append_toNat]
  simp
  omega

end Sys2Proof
end

