-- ==== Sys2Proof/Laws/Exec.lean ====
section
/-! SUPPORT. The state each instruction gives, when the step runs and when it is refused, and what the host's events
give, each said once. -/

namespace Sys2Proof.Machine

/-! ### The seven meanings -/

theorem exec_cls (s : State) : exec .cls s = .next (s.setFb blankScreen).advance := rfl

theorem exec_jp (nnn : BitVec 12) (s : State) : exec (.jp nnn) s = .next (s.setPc (zextAddress nnn)) := rfl

theorem exec_ldVx (x : BitVec 4) (kk : Byte) (s : State) :
    exec (.ldVx x kk) s = .next (s.setReg x kk).advance := rfl

theorem exec_addVx (x : BitVec 4) (kk : Byte) (s : State) :
    exec (.addVx x kk) s = .next (s.setReg x (addByte (s.reg x) kk)).advance := rfl

theorem exec_ldI (nnn : BitVec 12) (s : State) :
    exec (.ldI nnn) s = .next (s.setI (zextAddress nnn)).advance := rfl

theorem exec_drw (ignored : Byte) (n : BitVec 4) (s : State) :
    exec (.drw ignored n) s = .next ((s.setFb (s.drawn n).fb).setCollision (s.drawn n).hit).advance := rfl

theorem exec_unknown (op : Word) (s : State) : exec (.unknown op) s = .next s := rfl

/-- No instruction touches memory, the stack, SP, the timers or LIFE. -/
theorem exec_inert {i : Instr} {s t : State} (h : exec i s = .next t) :
    t.mem = s.mem ∧ t.stack = s.stack ∧ t.sp = s.sp ∧ t.dt = s.dt ∧ t.st = s.st ∧ t.life = s.life := by
  cases i with
  | cls => rw [exec_cls] at h; cases h; exact ⟨rfl, rfl, rfl, rfl, rfl, rfl⟩
  | jp nnn => rw [exec_jp] at h; cases h; exact ⟨rfl, rfl, rfl, rfl, rfl, rfl⟩
  | ldVx x kk => rw [exec_ldVx] at h; cases h; exact ⟨rfl, rfl, rfl, rfl, rfl, rfl⟩
  | addVx x kk => rw [exec_addVx] at h; cases h; exact ⟨rfl, rfl, rfl, rfl, rfl, rfl⟩
  | ldI nnn => rw [exec_ldI] at h; cases h; exact ⟨rfl, rfl, rfl, rfl, rfl, rfl⟩
  | drw ignored n => rw [exec_drw] at h; cases h; exact ⟨rfl, rfl, rfl, rfl, rfl, rfl⟩
  | unknown op => rw [exec_unknown] at h; cases h; exact ⟨rfl, rfl, rfl, rfl, rfl, rfl⟩

/-- `SameInert` from the fields. -/
theorem sameInert_of_fields {s t : State} (hs : t.stack = s.stack) (hp : t.sp = s.sp) (hd : t.dt = s.dt)
    (ht : t.st = s.st) (hl : t.life = s.life) : SameInert s t :=
  ⟨fun k => by simp [State.stackEntry, hs], hp, hd, ht, hl⟩

/-! ### The step (R50) -/

theorem step_running {s : State} (h : s.life = .running) : step s = exec s.fetchInstr s := by
  simp [step, whenRunning, h]

theorem step_empty {s : State} (h : s.life = .empty) : step s = .refused .stepBeforeLoad := by
  simp [step, whenRunning, h]

theorem step_failed {s : State} (h : s.life = .failed) : step s = .refused .stepAfterFailedLoad := by
  simp [step, whenRunning, h]

/-- A step that answers a next state was accepted. -/
theorem running_of_step {s t : State} (h : step s = .next t) : s.life = .running := by
  cases hl : s.life with
  | running => rfl
  | empty => simp [step_empty hl] at h
  | failed => simp [step_failed hl] at h

theorem stepOutputs_running {s : State} (h : s.life = .running) : s.stepOutputs = instrOutputs s.fetchInstr := by
  simp [State.stepOutputs, h]

/-! ### Runs (R104) -/

@[simp] theorem runSteps_zero (s : State) : runSteps 0 s = .next s := rfl

/-- A run's first step. -/
theorem runSteps_succ_of_step {s t : State} (h : step s = .next t) (k : Nat) : runSteps (k + 1) s = runSteps k t := by
  have h' : Sys2Proof.core.step s = .next t := h
  simp only [runSteps, Host.Core.run, h']
  rfl

/-- A run whose first step is refused is refused. -/
theorem runSteps_succ_of_refused {s : State} {r : Refusal} (h : step s = .refused r) (k : Nat) :
    runSteps (k + 1) s = .refused r := by
  have h' : Sys2Proof.core.step s = .refused r := h
  simp only [runSteps, Host.Core.run, h']
  rfl

/-- A run that answers a next state after at least one step began with an accepted step. -/
theorem step_of_runSteps_succ {s t : State} {k : Nat} (h : runSteps (k + 1) s = .next t) :
    ∃ u, step s = .next u ∧ runSteps k u = .next t := by
  cases hs : step s with
  | next u => exact ⟨u, rfl, by rw [← runSteps_succ_of_step hs, h]⟩
  | fault r => cases r
  | refused r => rw [runSteps_succ_of_refused hs] at h; cases h

/-- A property every step keeps holds at the end of every run from a state that has it. -/
theorem runSteps_induction {P : State → Prop} (keep : ∀ s t, P s → step s = .next t → P t) {k : Nat} {s t : State}
    (hs : P s) (h : runSteps k s = .next t) : P t := by
  induction k generalizing s with
  | zero => cases h; exact hs
  | succ k ih =>
    obtain ⟨u, hu, hk⟩ := step_of_runSteps_succ h
    exact ih (keep s u hs hu) hk

/-! ### Fetching (R45) -/

/-- The fetch reads the byte at PC and the byte after it. -/
theorem State.fetchWord_eq (s : State) :
    s.fetchWord = wordOfBytes (s.byteAt s.pc.toNat) (s.byteAt (s.pc.toNat + 1)) := rfl

theorem State.fetchInstr_eq_of {s t : State} (hm : t.mem = s.mem) (hp : t.pc = s.pc) :
    t.fetchInstr = s.fetchInstr := by
  simp [State.fetchInstr, State.fetchWord, State.wordAt, hm, hp]

/-! ### Load (R94, R95, R97) -/

theorem load_running {s : State} (h : s.life = .running) (image : List Byte) :
    load image s = .refused .loadWhileRunning := by
  simp [load, h]

theorem load_failed {s : State} (h : s.life = .failed) (image : List Byte) :
    load image s = .refused .loadAfterFailedLoad := by
  simp [load, h]

theorem load_nil {s : State} (h : s.life = .empty) : load [] s = .next { s with life := .failed } := by
  simp [load, h]

theorem load_cons {s : State} (h : s.life = .empty) {image : List Byte} (hi : image ≠ []) :
    load image s = .next (s.loadImage image) := by
  cases image with
  | nil => exact absurd rfl hi
  | cons b bs => simp [load, h]

@[simp] theorem State.loadImage_v (s : State) (image : List Byte) : (s.loadImage image).v = s.v := rfl
@[simp] theorem State.loadImage_i (s : State) (image : List Byte) : (s.loadImage image).i = 0x200 := rfl
@[simp] theorem State.loadImage_pc (s : State) (image : List Byte) : (s.loadImage image).pc = 0x200 := rfl
@[simp] theorem State.loadImage_stack (s : State) (image : List Byte) : (s.loadImage image).stack = s.stack := rfl
@[simp] theorem State.loadImage_sp (s : State) (image : List Byte) : (s.loadImage image).sp = s.sp := rfl
@[simp] theorem State.loadImage_dt (s : State) (image : List Byte) : (s.loadImage image).dt = s.dt := rfl
@[simp] theorem State.loadImage_st (s : State) (image : List Byte) : (s.loadImage image).st = s.st := rfl
@[simp] theorem State.loadImage_mem (s : State) (image : List Byte) :
    (s.loadImage image).mem = s.mem.writeBytes 0x200 (image.take 3584) := rfl
@[simp] theorem State.loadImage_fb (s : State) (image : List Byte) : (s.loadImage image).fb = s.fb := rfl
@[simp] theorem State.loadImage_life (s : State) (image : List Byte) : (s.loadImage image).life = .running := rfl

@[simp] theorem construct_life (font : Font) : (construct font).life = .empty := rfl
@[simp] theorem construct_pc (font : Font) : (construct font).pc = 0 := rfl
@[simp] theorem construct_i (font : Font) : (construct font).i = 0 := rfl
@[simp] theorem construct_fb (font : Font) : (construct font).fb = blankScreen := rfl

theorem construct_mem (font : Font) : (construct font).mem = Memory.withFont font := rfl

end Sys2Proof.Machine
end

