-- ==== Sys2Proof/Laws/PerInstr.lean ====
section
/-! SUPPORT. Statements over all instructions, one lemma per constructor. -/

namespace Sys2Proof.Laws

/-- The family EncodedLength (R45, R54): every instruction is one word of two bytes, whatever its content. -/
def EncodedLength.Statement (i : Instr) : Prop := (encode i).length = 2

theorem EncodedLength.cls : EncodedLength.Statement .cls := rfl
theorem EncodedLength.jp (nnn : BitVec 12) : EncodedLength.Statement (.jp nnn) := rfl
theorem EncodedLength.ldVx (x : BitVec 4) (kk : Byte) : EncodedLength.Statement (.ldVx x kk) := rfl
theorem EncodedLength.addVx (x : BitVec 4) (kk : Byte) : EncodedLength.Statement (.addVx x kk) := rfl
theorem EncodedLength.ldI (nnn : BitVec 12) : EncodedLength.Statement (.ldI nnn) := rfl
theorem EncodedLength.drw (ignored : Byte) (n : BitVec 4) : EncodedLength.Statement (.drw ignored n) := rfl
theorem EncodedLength.unknown (op : Word) : EncodedLength.Statement (.unknown op) := rfl

end Sys2Proof.Laws
end

