-- ==== Sys2Proof/Tests/Slice0.lean ====
section
/-! SUPPORT. The model's own tests: ill-formed terms refused, words written out from the spec's encodings, the spec's
vectors (95_test_vectors.md) as one-step tests, and a witness for the hypotheses of each statement. -/

namespace Sys2Proof.Tests

open Sys2Proof.Machine

/-! ### Helpers -/

/-- A running machine with these bytes at 0x200. -/
def booted (bytes : List Byte) : State := State.reset.loadImage bytes

/-- The next state of an outcome, if it has one. -/
def nextOf : Host.Outcome State Fault Refusal → Option State
  | .next s => some s
  | .fault _ => none
  | .refused _ => none

/-- The reason of a refusal, if it is one. -/
def refusalOf : Host.Outcome State Fault Refusal → Option Refusal
  | .next _ => none
  | .fault _ => none
  | .refused r => some r

/-! ### WellFormed refuses an ill-formed term for each of its checks -/

theorem test_unknown_of_cls_word_ill_formed : (Instr.unknown 0x00E0).wellFormed = false := by decide
theorem test_unknown_of_jp_word_ill_formed : (Instr.unknown 0x12A0).wellFormed = false := by decide
theorem test_unknown_of_ldVx_word_ill_formed : (Instr.unknown 0x6005).wellFormed = false := by decide
theorem test_unknown_of_addVx_word_ill_formed : (Instr.unknown 0x7310).wellFormed = false := by decide
theorem test_unknown_of_ldI_word_ill_formed : (Instr.unknown 0xA20C).wellFormed = false := by decide
theorem test_unknown_of_drw_word_ill_formed : (Instr.unknown 0xD011).wellFormed = false := by decide
theorem test_unknown_of_other_words_well_formed :
    ([0x0000, 0x00DF, 0x00E1, 0x0FFF, 0x2000, 0x5FFF, 0x8000, 0x9FFF, 0xB000, 0xCFFF, 0xE000, 0xFFFF] : List Word).all
      (fun w => (Instr.unknown w).wellFormed) = true := by decide

/-! ### Words written out bit by bit from the formats of R47 -/

theorem test_decode_cls : decode [0b00000000, 0b11100000] = .ok (.cls, []) := by decide
theorem test_decode_jp : decode [0b00010010, 0b10100000] = .ok (.jp 0b001010100000, []) := by decide
theorem test_decode_ldVx : decode [0b01101111, 0b00000001] = .ok (.ldVx 0b1111 0b00000001, []) := by decide
theorem test_decode_addVx : decode [0b01110011, 0b00010000] = .ok (.addVx 0b0011 0b00010000, []) := by decide
theorem test_decode_ldI : decode [0b10100010, 0b00001100] = .ok (.ldI 0b001000001100, []) := by decide
theorem test_decode_drw : decode [0b11011010, 0b10110101] = .ok (.drw 0b10101011 0b0101, []) := by decide
theorem test_decode_unknown : decode [0b00000000, 0b11101110] = .ok (.unknown 0b0000000011101110, []) := by decide
theorem test_decode_leaves_rest : decode [0x60, 0x05, 0x61] = .ok (.ldVx 0 5, [0x61]) := by decide
theorem test_decode_one_byte : decode [0x60] = .error .truncated := by decide
theorem test_decode_no_byte : decode [] = .error .truncated := by decide

/-- Examples of R55 encode to the words its table gives. -/
theorem test_encode_examples :
    [Instr.cls, .jp 0x2A0, .ldVx 0 5, .addVx 3 0x10, .ldI 0x20C, .drw 0x01 1, .drw 0xAB 5].map encodeWord =
      [0x00E0, 0x12A0, 0x6005, 0x7310, 0xA20C, 0xD011, 0xDAB5] := by decide

theorem test_table_word_addVx : decodeTableWord 16 0x7310 = some (.addVx 3 0x10) := by decide

/-- Examples of R55 in assembler text. -/
theorem test_assembly_jp : (Instr.jp 0x2A0).assembly = "JP 0x2A0" := by decide
theorem test_assembly_drw : (Instr.drw 0xAB 5).assembly = "DRW VA, VB, 5" := by decide
theorem test_assembly_unknown : (Instr.unknown 0xFFFF).assembly = "DW 0xFFFF" := by decide

/-! ### Construction and load (R92 to R97) -/

/-- V-RST-1: the reset state is `construct` with the default font. -/
theorem test_reset_is_construct : construct defaultFont = State.reset := by decide +kernel

/-- R93: the first and last glyph of the default font, and the zero after it. -/
theorem test_font_bytes :
    [0x00, 0x01, 0x04, 0x4B, 0x4C, 0x4F, 0x50].map State.reset.byteAt =
      [0xF0, 0x90, 0xF0, 0xF0, 0x80, 0x80, 0x00] := by decide

/-- V-RST-2. -/
theorem test_load_two_bytes :
    (nextOf (load [0x12, 0x00] State.reset)).map
      (fun s => (s.pc, s.i, s.life, s.byteAt 0x200, s.byteAt 0x201, s.byteAt 0x202)) =
      some (0x0200, 0x0200, .running, 0x12, 0x00, 0x00) := by decide

/-- V-RST-3. -/
theorem test_load_empty_image : (nextOf (load [] State.reset)).map (·.life) = some .failed := by decide

/-- V-RST-4. -/
theorem test_step_before_load : refusalOf (step State.reset) = some .stepBeforeLoad := by decide

theorem test_second_load : refusalOf (load [0x00] (booted [0x12, 0x00])) = some .loadWhileRunning := by decide

/-- A word placed after reset is the first instruction to run. -/
theorem test_placed_word_runs :
    (nextOf (step (State.reset.withFetchWord 16 0x6A7F))).map (·.reg 10) = some 0x7F := by decide

/-! ### One step of each instruction: the spec's vectors -/

/-- V-CLS-1: VF and I kept. -/
theorem test_cls :
    (nextOf (step (((((booted [0x00, 0xE0]).setFb (toggleCell blankScreen 31 63)).setReg 15 1)).setI 0x300))).map
      (fun s => (s.pc, s.cell 31 63, s.reg 15, s.i)) = some (0x0202, false, 0x01, 0x0300) := by decide +kernel

/-- V-JP-5: an odd target, and the word fetched there. -/
theorem test_jp_odd :
    (nextOf (step (booted [0x12, 0x03, 0x00, 0x60, 0x05]))).map (fun s => (s.pc, s.fetchWord)) =
      some (0x0203, 0x6005) := by decide +kernel

/-- V-JP-2. -/
theorem test_jp_self : nextOf (step (booted [0x12, 0x00])) = some (booted [0x12, 0x00]) := by decide +kernel

/-- V-LD-3: VF as an ordinary destination. -/
theorem test_ldVx_vf :
    (nextOf (step ((booted [0x6F, 0xFF]).setReg 15 1))).map (fun s => (s.reg 15, s.pc)) =
      some (0xFF, 0x0202) := by decide +kernel

/-- V-ADD-8: a carry out, and VF unchanged. -/
theorem test_addVx_wraps :
    (nextOf (step (((booted [0x70, 0x03]).setReg 0 0xFE).setReg 15 1))).map (fun s => (s.reg 0, s.reg 15)) =
      some (0x01, 0x01) := by decide +kernel

/-- V-ADD-6: VF as the destination. -/
theorem test_addVx_vf :
    (nextOf (step ((booted [0x7F, 0x02]).setReg 15 1))).map (·.reg 15) = some 0x03 := by decide +kernel

/-- V-LDI-3. -/
theorem test_ldI :
    (nextOf (step ((booted [0xAF, 0xFF]).setI 0))).map (fun s => (s.i, s.pc)) = some (0x0FFF, 0x0202) := by
  decide +kernel

/-- V-DRW-4: both coordinates wrap, VF's old value is lost (sprite bytes A5 3C after the word). -/
theorem test_drw_wraps :
    (nextOf (step (((((booted [0xD0, 0x12, 0xA5, 0x3C]).setReg 0 0xFF).setReg 1 0xFF).setReg 15 0x77).setI 0x202))).map
      (fun s => ([(31, 63), (31, 0), (31, 1), (31, 4), (31, 6), (0, 0), (0, 1), (0, 4)].map
        (fun p : Fin 32 × Fin 64 => s.cell p.1 p.2), s.reg 15, s.pc)) =
      some ([true, false, true, true, true, false, true, true], 0x00, 0x0202) := by decide +kernel

/-- V-DRW-6 with the word of V-DRW-10: a collision, the x and y nibbles ignored. -/
theorem test_drw_collides :
    (nextOf (step (((((booted [0xDA, 0xB1, 0xF0]).setReg 0 5).setReg 1 3).setI 0x202).setFb
        (toggleCell blankScreen 3 6)))).map
      (fun s => ([(3, 5), (3, 6), (3, 7), (3, 8), (3, 9)].map (fun p : Fin 32 × Fin 64 => s.cell p.1 p.2), s.reg 15)) =
      some ([true, false, true, true, false], 0x01) := by decide +kernel

/-- V-UNK-6: no call, nothing changes, and the report carries the word. -/
theorem test_unknown :
    nextOf (step (booted [0x22, 0x08])) = some (booted [0x22, 0x08]) ∧
      (booted [0x22, 0x08]).stepOutputs = { renderRequest := true, unknownOpcode := some 0x2208 } := by decide +kernel

/-- V-MEM-1: PC wraps at the top of memory. -/
theorem test_pc_wraps :
    (nextOf (step { booted [0x00] with mem := [(0xFFE, 0x60), (0xFFF, 0x01)], pc := 0x0FFE })).map
      (fun s => (s.reg 0, s.pc)) = some (0x01, 0x0000) := by decide +kernel

/-- V-MEM-3 (premise: the default font): the low byte of a fetch at 0x0FFF comes from 0x000. -/
theorem test_fetch_wraps :
    (nextOf (step { booted [0x00] with mem := [(0xFFF, 0x60)], pc := 0x0FFF })).map
      (fun s => (s.reg 0, s.pc)) = some (0xF0, 0x0001) := by decide +kernel

/-! ### Witnesses: each statement's hypotheses can be met, clause by clause -/

theorem witness_decode_encode : (Instr.unknown 0xFFFF).wellFormed = true ∧ (Instr.drw 0xFF 15).wellFormed = true := by
  decide

theorem witness_operand_fields :
    decodeWord 0x1FFF = .jp 0xFFF ∧ decodeWord 0x6F01 = .ldVx 15 1 ∧ decodeWord 0x70FF = .addVx 0 0xFF ∧
    decodeWord 0xA000 = .ldI 0 ∧ decodeWord 0xDFFF = .drw 0xFF 15 ∧ decodeWord 0x0000 = .unknown 0 := by decide

theorem witness_dont_care_bits :
    (0xD005 : Word).toNat / 4096 = 0xD ∧ (0xDAB5 : Word).toNat / 4096 = 0xD ∧
    (0xD005 : Word).toNat % 16 = (0xDAB5 : Word).toNat % 16 ∧
    fitsNoFamily 0x6005 = false ∧ (0x6005 : Word).toNat / 4096 ≠ 0xD := by decide

theorem witness_step_runs_decoded :
    (booted [0x60, 0x05]).life = .running ∧ (Instr.ldVx 0 5).wellFormed = true ∧
    decode [(booted [0x60, 0x05]).byteAt 0x200, (booted [0x60, 0x05]).byteAt 0x201] = .ok (.ldVx 0 5, []) := by decide

/-- Every word stands at PC in some running state, so every arm of R50 is met, at every edge of its range. -/
theorem witness_step_dispatch (w : Word) :
    (booted [highByte w, lowByte w]).life = .running ∧
    (booted [highByte w, lowByte w]).wordAt (booted [highByte w, lowByte w]).pc.toNat = w := by
  have read := fun a ha => Memory.read_writeBytes Memory.wf_nil 0x200 [highByte w, lowByte w] (by simp) a ha
  refine ⟨rfl, ?_⟩
  simp [State.wordAt, Memory.read2_eq_wordOfBytes, booted, State.reset, read]

theorem witness_step_refused : State.reset.life ≠ .running := by decide

theorem witness_placed_instruction : Memory.wf State.reset.mem ∧ (Instr.jp 0x200).wellFormed = true := by decide

/-- Two memories written in different orders are canonical and read alike. -/
theorem witness_canonical_memories :
    Memory.wf (Memory.write (Memory.write [] 0x050 1) 0xFFF 2) ∧
    Memory.wf (Memory.write (Memory.write [] 0xFFF 2) 0x050 1) ∧
    ∀ a, a < 4096 →
      Memory.read (Memory.write (Memory.write [] 0x050 1) 0xFFF 2) a =
        Memory.read (Memory.write (Memory.write [] 0xFFF 2) 0x050 1) a := by
  refine ⟨by decide, by decide, fun a ha => ?_⟩
  rw [Memory.read_write (Memory.wf_write Memory.wf_nil _ _), Memory.read_write Memory.wf_nil,
    Memory.read_write (Memory.wf_write Memory.wf_nil _ _), Memory.read_write Memory.wf_nil]
  by_cases h1 : a % 4096 = 0x050 % 4096 <;> by_cases h2 : a % 4096 = 0xFFF % 4096 <;> simp_all

/-- States at the top of memory that run an instruction which is neither a jump nor unknown. -/
def atTop (pc : Word) : State := { booted [0x00] with mem := [(0xFFE, 0x60), (0xFFF, 0x60)], pc := pc }

theorem witness_top_of_memory :
    (atTop 0x0FFE).life = .running ∧ (atTop 0x0FFE).pc = 0x0FFE ∧ fitsNoFamily (atTop 0x0FFE).fetchWord = false ∧
    (atTop 0x0FFE).fetchWord.toNat / 4096 ≠ 0x1 ∧
    (atTop 0x0FFF).pc = 0x0FFF ∧ fitsNoFamily (atTop 0x0FFF).fetchWord = false ∧
    (atTop 0x0FFF).fetchWord.toNat / 4096 ≠ 0x1 ∧
    (State.reset.setI 0xFF2).i.toNat ≤ 0x0FFF ∧ 4096 ≤ (State.reset.setI 0xFF2).i.toNat + 14 := by decide

theorem witness_load : State.reset.life = .empty ∧ Memory.wf State.reset.mem ∧ ([0x12, 0x00] : List Byte) ≠ [] := by
  decide

/-- The ranges of the load statements at their edges: bytes before, in and after an image of two bytes. -/
theorem witness_load_ranges :
    (1 < ([0x12, 0x00] : List Byte).length ∧ 1 < 3584) ∧
    ¬ (0x200 ≤ 0x1FF ∧ 0x1FF < 0x200 + min ([0x12, 0x00] : List Byte).length 3584) ∧
    ¬ (0x200 ≤ 0x202 ∧ 0x202 < 0x200 + min ([0x12, 0x00] : List Byte).length 3584) := by decide

/-- The address ranges of the construction and first-step statements at their edges: font, zeros, image, zeros. -/
theorem witness_memory_ranges :
    (0 < 80 ∧ 79 < 80) ∧ (80 ≤ 80 ∧ 80 < 512 ∧ 80 ≤ 511 ∧ 511 < 512) ∧
    (0 < min ([0x12, 0x00] : List Byte).length 3584 ∧ 1 < min ([0x12, 0x00] : List Byte).length 3584) ∧
    (512 + min ([0x12, 0x00] : List Byte).length 3584 ≤ 514 ∧ 514 < 4096 ∧ 4095 < 4096) := by decide

theorem witness_lifecycle :
    State.reset.life = .empty ∧ (booted [0x12, 0x00]).life = .running ∧
    ({ State.reset with life := .failed } : State).life = .failed := by decide

theorem witness_family_words :
    (0x1000 ≤ (0x1000 : Word).toNat ∧ (0x1FFF : Word).toNat ≤ 0x1FFF) ∧
    (0x6000 ≤ (0x6000 : Word).toNat ∧ (0x6FFF : Word).toNat ≤ 0x6FFF) ∧
    (0x7000 ≤ (0x7000 : Word).toNat ∧ (0x7FFF : Word).toNat ≤ 0x7FFF) ∧
    (0xA000 ≤ (0xA000 : Word).toNat ∧ (0xAFFF : Word).toNat ≤ 0xAFFF) := by decide

theorem witness_addVx_operands : (0 : BitVec 4) ≠ 15 ∧ (0xFF : Byte) ≠ 0 := by decide

theorem witness_sprite_positions : (14 : Nat) < 16 ∧ (0 : Nat) < 16 ∧ (7 : Nat) < 8 ∧ (0 : Nat) < 8 ∧
    spriteRow 3 14 = spriteRow 3 14 ∧ spriteColumn 63 7 = spriteColumn 63 7 := by decide

/-- V0 = V1 = 0 and I at a byte 0x80: the sprite of height 1 covers the cell (0, 0). -/
def drawing : State := (booted [0xD0, 0x11, 0x80]).setI 0x202

theorem witness_sprite_covers : SpriteCovers drawing 1 0 0 :=
  ⟨0, 0, by decide, by decide, by decide, by decide, by decide⟩

theorem witness_sprite_misses : ¬ SpriteCovers drawing 0 0 0 := by
  rintro ⟨r, c, h, -⟩
  exact absurd h (Nat.not_lt_zero r)

/-- On a blank screen the covered cell is 0. -/
theorem witness_draw_without_collision : SpriteCovers drawing 1 0 0 ∧ ∀ row col, drawing.cell row col = false :=
  ⟨witness_sprite_covers, fun row col => cellOf_blankScreen row col⟩

/-- With every cell 1 the covered cell is 1. -/
theorem witness_draw_with_collision :
    SpriteCovers (drawing.setFb (Vector.replicate 32 (Vector.replicate 64 true))) 1 0 0 ∧
    ∀ row col, (drawing.setFb (Vector.replicate 32 (Vector.replicate 64 true))).cell row col = true :=
  ⟨⟨0, 0, by decide, by decide, by decide, by decide, by decide⟩, fun row col => by simp [cellOf]⟩

/-- A sprite of height 0 covers no cell at all. -/
theorem witness_empty_sprite : ∀ row col, ¬ SpriteCovers drawing 0 row col := by
  rintro row col ⟨r, c, h, -⟩
  exact absurd h (Nat.not_lt_zero r)

/-- Two states that differ in V2 agree on all a draw reads. -/
theorem witness_draw_reads :
    (drawing.setReg 2 9).reg 0 = drawing.reg 0 ∧ (drawing.setReg 2 9).reg 1 = drawing.reg 1 ∧
    (drawing.setReg 2 9).pc = drawing.pc ∧ SameScreen drawing (drawing.setReg 2 9) ∧
    (∀ r, r < (1 : BitVec 4).toNat →
      (drawing.setReg 2 9).byteAt ((drawing.setReg 2 9).i.toNat + r) = drawing.byteAt (drawing.i.toNat + r)) ∧
    (∃ t, exec (.drw 0 1) drawing = .next t) ∧ ∃ t', exec (.drw 1 1) (drawing.setReg 2 9) = .next t' :=
  ⟨by decide, by decide, rfl, fun _ _ => rfl, fun _ _ => rfl, ⟨_, rfl⟩, ⟨_, rfl⟩⟩

theorem witness_unknown_opcode :
    (booted [0xFF, 0xFF]).life = .running ∧
    fitsNoFamily ((booted [0xFF, 0xFF]).wordAt (booted [0xFF, 0xFF]).pc.toNat) = true := by decide

theorem witness_self_jump : (booted [0x12, 0x00]).life = .running ∧ AtSelfJump (booted [0x12, 0x00]) :=
  ⟨rfl, by decide, by decide⟩

theorem witness_at_unknown_opcode : AtUnknownOpcode (booted [0xFF, 0xFF]) := by
  show fitsNoFamily _ = true
  decide

/-- Running states for each case of the PC table (R17) and of the outputs (R61, R66). -/
theorem witness_step_cases :
    ([(0x00, 0xEE), (0x1F, 0xFF), (0x00, 0xE0), (0x60, 0x00), (0x7F, 0xFF), (0xA0, 0x00), (0xDF, 0xFF)] :
      List (Byte × Byte)).all (fun b => decide ((booted [b.1, b.2]).life = .running)) = true ∧
    (fitsNoFamily (booted [0x00, 0xEE]).fetchWord = true) ∧
    (booted [0x1F, 0xFF]).fetchWord.toNat / 4096 = 0x1 ∧
    (fitsNoFamily (booted [0x00, 0xE0]).fetchWord = false ∧ (booted [0x00, 0xE0]).fetchWord.toNat / 4096 ≠ 0x1) ∧
    (booted [0x60, 0x00]).fetchWord.toNat / 4096 = 0x6 ∧ (booted [0x7F, 0xFF]).fetchWord.toNat / 4096 = 0x7 ∧
    (booted [0xA0, 0x00]).fetchWord.toNat / 4096 = 0xA ∧ (booted [0xDF, 0xFF]).fetchWord.toNat / 4096 = 0xD ∧
    (booted [0x00, 0xE0]).pc.toNat ≤ 0x0FFF := by decide

/-- Every writer of R28 does change what it writes. -/
theorem witness_writers :
    (nextOf (exec (.ldVx 3 7) State.reset)).map (·.reg 3) ≠ some (State.reset.reg 3) ∧
    (nextOf (exec (.addVx 3 7) State.reset)).map (·.reg 3) ≠ some (State.reset.reg 3) ∧
    (nextOf (exec (.drw 0 0) (State.reset.setReg 15 7))).map (·.reg 15) ≠ some ((State.reset.setReg 15 7).reg 15) ∧
    (nextOf (exec (.ldI 7) State.reset)).map (·.i) ≠ some State.reset.i ∧
    (nextOf (exec (.jp 7) State.reset)).map (·.pc) ≠ some State.reset.pc ∧
    (nextOf (exec (.drw 0 1) drawing)).map (·.cell 0 0) ≠ some (drawing.cell 0 0) := by decide +kernel

theorem witness_inert_state : ∃ t, step (booted [0x60, 0x05]) = .next t :=
  ⟨_, step_running rfl⟩

/-- Two states with the same memory and PC and different registers run one step each. -/
theorem witness_control_flow :
    SameMemory (booted [0x12, 0x00]) ((booted [0x12, 0x00]).setReg 0 1) ∧
    ((booted [0x12, 0x00]).setReg 0 1).pc = (booted [0x12, 0x00]).pc ∧
    (∃ t, runSteps 1 (booted [0x12, 0x00]) = .next t) ∧
    ∃ t', runSteps 1 ((booted [0x12, 0x00]).setReg 0 1) = .next t' :=
  ⟨fun _ => rfl, rfl, ⟨_, runSteps_succ_of_step (step_running rfl) 0⟩, ⟨_, runSteps_succ_of_step (step_running rfl) 0⟩⟩

theorem witness_invariant : Inv (booted [0x12, 0x00]) ∧ ∃ t, step (booted [0x12, 0x00]) = .next t :=
  ⟨⟨by decide, by decide, by decide, by decide, rfl, rfl, rfl⟩, ⟨_, step_running rfl⟩⟩

theorem witness_load_invariant : Inv State.reset ∧ ∃ t, load [0x12, 0x00] State.reset = .next t :=
  ⟨⟨by decide, by decide, by decide, by decide, rfl, rfl, rfl⟩, ⟨_, rfl⟩⟩

theorem witness_monitor : ∃ t, runSteps 1 (booted [0xFF, 0xFF]) = .next t :=
  ⟨_, runSteps_succ_of_step (step_running rfl) 0⟩

end Sys2Proof.Tests
end

/-! PROOFS. The program counter of a step (R17). -/

namespace Sys2Proof.Machine

/-! ### The word of each case of R17's table, decoded -/

theorem decodeWord_of_fitsNoFamily {w : Word} (h : fitsNoFamily w = true) : decodeWord w = .unknown w := by
  obtain ⟨hcls, hjp, hldVx, haddVx, hldI, hdrw⟩ := (fitsNoFamily_iff_toNat w).mp h
  rw [decodeWord_eq, if_neg hcls, if_neg hjp, if_neg hldVx, if_neg haddVx, if_neg hldI, if_neg hdrw]

theorem decodeWord_of_jpFamily {w : Word} (h : w.toNat / 4096 = 0x1) : decodeWord w = .jp (opNnn w) := by
  have hcls : w.toNat ≠ 0xE0 := by omega
  rw [decodeWord_eq, if_neg hcls, if_pos h]

/-! ### Where PC stands after an instruction (R17) -/

/-- R17's table by instruction: the value of PC after the instruction, from its value before. -/
def pcAfter (i : Instr) (pc : Word) : Word :=
  match i with
  | .jp nnn => zextAddress nnn
  | .unknown _ => pc
  | .cls | .ldVx _ _ | .addVx _ _ | .ldI _ | .drw _ _ => nextPc pc

/-- Every instruction completes, with PC as the table says. -/
theorem exec_pcAfter (i : Instr) (s : State) : ∃ t, exec i s = .next t ∧ t.pc = pcAfter i s.pc := by
  cases i with
  | cls => exact ⟨_, exec_cls s, rfl⟩
  | jp nnn => exact ⟨_, exec_jp nnn s, rfl⟩
  | ldVx x kk => exact ⟨_, exec_ldVx x kk s, rfl⟩
  | addVx x kk => exact ⟨_, exec_addVx x kk s, rfl⟩
  | ldI nnn => exact ⟨_, exec_ldI nnn s, rfl⟩
  | drw ignored n => exact ⟨_, exec_drw ignored n s, rfl⟩
  | unknown op => exact ⟨_, exec_unknown op s, rfl⟩

/-- Every running step completes, with PC as the table says for the fetched instruction. -/
theorem step_pcAfter {s : State} (h : s.life = .running) :
    ∃ t, step s = .next t ∧ t.pc = pcAfter (decodeWord s.fetchWord) s.pc := by
  rw [step_running h]
  exact exec_pcAfter s.fetchInstr s

/-- A recognised word that is no jump moves PC past itself. -/
theorem pcAfter_decodeWord_of_ne_jpFamily {w : Word} (hknown : fitsNoFamily w = false) (hjp : w.toNat / 4096 ≠ 0x1)
    (pc : Word) : pcAfter (decodeWord w) pc = nextPc pc := by
  rw [decodeWord_eq, if_neg hjp]
  split_ifs with hcls hldVx haddVx hldI hdrw
  · rfl
  · rfl
  · rfl
  · rfl
  · rfl
  · have hunknown := (fitsNoFamily_iff_toNat w).mpr ⟨hcls, hjp, hldVx, haddVx, hldI, hdrw⟩
    rw [hunknown] at hknown
    cases hknown

theorem nextPc_valid (pc : Word) : (nextPc pc).toNat ≤ 0x0FFF := by
  rw [nextPc_toNat]
  omega

theorem zextAddress_valid (nnn : BitVec 12) : (zextAddress nnn).toNat ≤ 0x0FFF := by
  rw [zextAddress_toNat]
  exact Nat.le_of_lt_succ nnn.isLt

/-- Every instruction leaves a valid PC valid. -/
theorem pcAfter_valid (i : Instr) {pc : Word} (h : pc.toNat ≤ 0x0FFF) : (pcAfter i pc).toNat ≤ 0x0FFF := by
  cases i with
  | jp nnn => exact zextAddress_valid nnn
  | unknown op => exact h
  | cls | ldVx x kk | addVx x kk | ldI nnn | drw ignored n => exact nextPc_valid pc

/-- Settles O31: by the fetched word, the step's `pcAfter` is each row of R17's table. -/
theorem programCounterOfAStep : Obligations.ProgramCounterOfAStep := by
  intro s hrun
  obtain ⟨t, hstep, hpc⟩ := step_pcAfter hrun
  refine ⟨t, hstep, fun hunknown => ?_, fun hjp => ?_, fun hknown hjp => ?_, fun hvalid => ?_⟩
  · rw [hpc, decodeWord_of_fitsNoFamily hunknown, pcAfter]
  · rw [hpc, decodeWord_of_jpFamily hjp, pcAfter, zextAddress_toNat, opNnn_toNat]
  · exact pcAdvanced_of_pc (hpc.trans (pcAfter_decodeWord_of_ne_jpFamily hknown hjp s.pc))
  · rw [hpc]
    exact pcAfter_valid _ hvalid

end Sys2Proof.Machine

/-! PROOFS. Reads of memory (R33) and the edges of memory (R44). -/

namespace Sys2Proof.Machine

/-! ### Reads take the address modulo 4096 (R33) -/

theorem State.byteAt_mod (s : State) (addr : Nat) : s.byteAt (addr % 4096) = s.byteAt addr :=
  Memory.read_mod s.mem addr

theorem State.wordAt_toNat (s : State) (addr : Nat) :
    (s.wordAt addr).toNat = (s.byteAt addr).toNat * 256 + (s.byteAt (addr + 1)).toNat :=
  Memory.read2_toNat s.mem addr

theorem State.byteAt_add_memSize (s : State) (addr : Nat) : s.byteAt (addr + 4096) = s.byteAt addr := by
  rw [← s.byteAt_mod (addr + 4096), Nat.add_mod_right, s.byteAt_mod]

/-- Settles O10: a byte read depends on its address modulo 4096 alone, and a word read is two byte reads. -/
theorem memReadWrapsAndIsBigEndian : Obligations.MemReadWrapsAndIsBigEndian := by
  intro s addr
  rw [s.wordAt_toNat, s.byteAt_mod, s.byteAt_mod]
  exact ⟨rfl, rfl⟩

/-! ### The edges of memory (R44) -/

theorem State.fetchWord_of_pc_toNat {s : State} {a : Nat} (hpc : s.pc.toNat = a) :
    s.fetchWord = s.byteAt a ++ s.byteAt (a + 1) := by
  rw [s.fetchWord_eq, hpc, wordOfBytes]

/-- Every running step completes, and moves PC past a recognised word that is no jump. -/
theorem step_nextPc {s : State} {pc' : Word} (hrun : s.life = .running) (hnext : nextPc s.pc = pc') :
    ∃ t, step s = .next t ∧
      (fitsNoFamily s.fetchWord = false → s.fetchWord.toNat / 4096 ≠ 0x1 → t.pc = pc') := by
  obtain ⟨t, hstep, hpc⟩ := step_pcAfter hrun
  refine ⟨t, hstep, fun hknown hjp => ?_⟩
  rw [hpc, pcAfter_decodeWord_of_ne_jpFamily hknown hjp, hnext]

/-- A sprite read past the last address continues at address 0. -/
theorem State.spriteByte_of_past_top {s : State} {r : Nat} (h : 4096 ≤ s.i.toNat + r) :
    s.spriteByte r = s.byteAt (s.i.toNat + r - 4096) := by
  rw [← s.byteAt_add_memSize, Nat.sub_add_cancel h, State.spriteByte]

/-- Settles O12: each edge is the general rule of the fetch, of PC or of the sprite read, with its address reduced. -/
theorem topOfMemoryWraps : Obligations.TopOfMemoryWraps := by
  refine ⟨fun s hrun hpc => ⟨?_, ?_⟩, fun s hrun hpc => ⟨?_, ?_⟩, fun s r _ hr hpast => ⟨?_, ?_⟩⟩
  · have hpcNat : s.pc.toNat = 0xFFE := congrArg BitVec.toNat hpc
    exact State.fetchWord_of_pc_toNat hpcNat
  · have hnext : nextPc s.pc = 0x0000 := hpc ▸ by decide
    exact step_nextPc hrun hnext
  · have hpcNat : s.pc.toNat = 0xFFF := congrArg BitVec.toNat hpc
    have hwrap : s.byteAt (0xFFF + 1) = s.byteAt 0x000 := s.byteAt_add_memSize 0x000
    rw [State.fetchWord_of_pc_toNat hpcNat, hwrap]
  · have hnext : nextPc s.pc = 0x0001 := hpc ▸ by decide
    exact step_nextPc hrun hnext
  · omega
  · exact State.spriteByte_of_past_top hpast

end Sys2Proof.Machine

/-! PROOFS. The families of instruction words (R49), the don't-care bits of a draw (R53) and the dispatch of the step
(R50). -/

namespace Sys2Proof.Machine

/-! ### The families (R49) -/

/-- Settles O4: each branch of the dispatch fixes the instruction and the word's number alike. -/
theorem familyByFullWordOrHighNibble : Obligations.FamilyByFullWordOrHighNibble := by
  intro w
  rw [decodeWord_eq, ne_eq, eq_clsWord_iff]
  split_ifs with hcls hjp hldVx haddVx hldI hdrw
  · simp [hcls]
  · simp [hcls, hjp]
  · simp [hcls, hldVx]
  · simp [hcls, haddVx]
  · simp [hcls, hldI]
  · simp [hcls, hdrw]
  · simp [hcls, hjp, hldVx, haddVx, hldI, hdrw]

/-! ### The word of each family, decoded with its operands -/

theorem decodeWord_clsWord : decodeWord 0x00E0 = .cls := rfl

theorem decodeWord_of_ldVxFamily {w : Word} (h : w.toNat / 4096 = 0x6) : decodeWord w = .ldVx (opX w) (opKk w) := by
  have hcls : w.toNat ≠ 0xE0 := by omega
  simp [decodeWord_eq, hcls, h]

theorem decodeWord_of_addVxFamily {w : Word} (h : w.toNat / 4096 = 0x7) : decodeWord w = .addVx (opX w) (opKk w) := by
  have hcls : w.toNat ≠ 0xE0 := by omega
  simp [decodeWord_eq, hcls, h]

theorem decodeWord_of_ldIFamily {w : Word} (h : w.toNat / 4096 = 0xA) : decodeWord w = .ldI (opNnn w) := by
  have hcls : w.toNat ≠ 0xE0 := by omega
  simp [decodeWord_eq, hcls, h]

theorem decodeWord_of_drwFamily {w : Word} (h : w.toNat / 4096 = 0xD) : decodeWord w = .drw (opIgnored w) (opN w) := by
  have hcls : w.toNat ≠ 0xE0 := by omega
  simp [decodeWord_eq, hcls, h]

/-! ### Don't-care bits (R53) -/

/-- The decoder drops no bit of the word: an instruction's operands and its family make the word again. -/
theorem encodeWord_decodeWord (w : Word) : encodeWord (decodeWord w) = w := by
  apply BitVec.eq_of_toNat_eq
  rw [decodeWord_eq]
  split_ifs with hcls hjp hldVx haddVx hldI hdrw
  · exact hcls.symm
  · rw [encodeWord_jp_toNat, opNnn_toNat]
    omega
  · rw [encodeWord_ldVx_toNat, opX_toNat, opKk_toNat]
    omega
  · rw [encodeWord_addVx_toNat, opX_toNat, opKk_toNat]
    omega
  · rw [encodeWord_ldI_toNat, opNnn_toNat]
    omega
  · rw [encodeWord_drw_toNat, opIgnored_toNat, opN_toNat]
    omega
  · rfl

theorem decodeWord_injective : Function.Injective decodeWord :=
  Function.LeftInverse.injective encodeWord_decodeWord

/-- Bits op[11:4] take no part in the execution of a draw. -/
theorem exec_drw_eq_of_ignored (ignored ignored' : Byte) (n : BitVec 4) (s : State) :
    exec (.drw ignored n) s = exec (.drw ignored' n) s := by
  rw [exec_drw, exec_drw]

/-- Draw words with the same low nibble have the same sprite height. -/
theorem opN_eq_of_mod_eq {w w' : Word} (h : w.toNat % 16 = w'.toNat % 16) : opN w = opN w' := by
  apply BitVec.eq_of_toNat_eq
  rw [opN_toNat, opN_toNat, h]

/-- Settles O6: a draw word is read as its height and its ignored bits, and only its execution drops the latter; the
decoder itself tells all words apart. -/
theorem drawAloneHasDontCareBits : Obligations.DrawAloneHasDontCareBits := by
  refine ⟨fun w hdrw => ?_, fun w w' s hdrw hdrw' hlow => ?_, fun w w' _ _ hsame => ?_⟩
  · exact ⟨opIgnored w, opN w, decodeWord_of_drwFamily hdrw, opN_toNat w⟩
  · rw [decodeWord_of_drwFamily hdrw, decodeWord_of_drwFamily hdrw', opN_eq_of_mod_eq hlow]
    exact exec_drw_eq_of_ignored _ _ _ s
  · exact decodeWord_injective hsame

/-! ### The dispatch of the step (R50) -/

theorem step_refused_of_not_running {s : State} (h : s.life ≠ .running) : ∃ r, step s = .refused r := by
  cases hlife : s.life with
  | empty => exact ⟨_, step_empty hlife⟩
  | running => exact absurd hlife h
  | failed => exact ⟨_, step_failed hlife⟩

/-- A running step executes what the two bytes at PC decode to. -/
theorem step_of_decodeWord {s : State} {i : Instr} (hrun : s.life = .running)
    (hdecode : decodeWord (s.wordAt s.pc.toNat) = i) : step s = exec i s := by
  rw [step_running hrun, State.fetchInstr, State.fetchWord, hdecode]

/-- Settles O8: the step executes the decoded word, and the decoder reads each family with the operands of R46. -/
theorem stepDispatchesOnTheFetchedWord : Obligations.StepDispatchesOnTheFetchedWord := by
  refine ⟨fun s => step_refused_of_not_running, ?_⟩
  rintro s op hrun rfl
  refine ⟨fun hcls => ⟨?_, ?_⟩, fun hjp => ?_, fun hldVx => ?_, fun haddVx => ?_, fun hldI => ?_, fun hdrw => ?_,
    fun hcls hjp hldVx haddVx hldI hdrw => ?_⟩
  · exact step_of_decodeWord hrun (hcls ▸ decodeWord_clsWord)
  · rw [hcls]
    rfl
  · exact step_of_decodeWord hrun (decodeWord_of_jpFamily hjp)
  · exact step_of_decodeWord hrun (decodeWord_of_ldVxFamily hldVx)
  · exact step_of_decodeWord hrun (decodeWord_of_addVxFamily haddVx)
  · exact step_of_decodeWord hrun (decodeWord_of_ldIFamily hldI)
  · exact step_of_decodeWord hrun (decodeWord_of_drwFamily hdrw)
  · have hcls' := mt (eq_clsWord_iff _).mpr hcls
    have hunknown := (fitsNoFamily_iff_toNat _).mpr ⟨hcls', hjp, hldVx, haddVx, hldI, hdrw⟩
    exact step_of_decodeWord hrun (decodeWord_of_fitsNoFamily hunknown)

end Sys2Proof.Machine

/-! PROOFS. The outputs of a step (R10, R61, R66) and clear screen (R60). -/

namespace Sys2Proof.Machine

/-! ### The words behind an output -/

theorem decodeWord_eq_cls_iff (w : Word) : decodeWord w = .cls ↔ w = 0x00E0 :=
  (familyByFullWordOrHighNibble w).1

theorem decodeWord_eq_drw_iff (w : Word) :
    (∃ ignored n, decodeWord w = .drw ignored n) ↔ w.toNat / 4096 = 0xD := by
  obtain ⟨_, _, _, _, _, hdrw, _⟩ := familyByFullWordOrHighNibble w
  exact hdrw

/-- The decoder answers `unknown` at the words of no family alone, with the whole word as the operand. -/
theorem decodeWord_eq_unknown_iff (w op : Word) :
    decodeWord w = .unknown op ↔ fitsNoFamily w = true ∧ op = w := by
  constructor
  · intro h
    have hop : op = w := by rw [← encodeWord_decodeWord w, h, encodeWord]
    obtain ⟨_, _, _, _, _, _, hunknown⟩ := familyByFullWordOrHighNibble w
    have hnone := hunknown.mp ⟨op, h⟩
    rw [ne_eq, eq_clsWord_iff] at hnone
    exact ⟨(fitsNoFamily_iff_toNat w).mpr hnone, hop⟩
  · rintro ⟨hnone, rfl⟩
    exact decodeWord_of_fitsNoFamily hnone

/-! ### Which instructions raise which output (R10) -/

theorem instrOutputs_renderRequest_iff (i : Instr) :
    (instrOutputs i).renderRequest = true ↔
      i = .cls ∨ (∃ ignored n, i = .drw ignored n) ∨ ∃ op, i = .unknown op := by
  cases i with
  | cls | drw ignored n => simp [instrOutputs, Outputs.render]
  | unknown op => simp [instrOutputs, Outputs.report]
  | jp nnn | ldVx x kk | addVx x kk | ldI nnn => simp [instrOutputs, Outputs.none]

theorem instrOutputs_unknownOpcode_iff (i : Instr) (op : Word) :
    (instrOutputs i).unknownOpcode = some op ↔ i = .unknown op := by
  cases i with
  | cls | drw ignored n => simp [instrOutputs, Outputs.render]
  | unknown op' => simp [instrOutputs, Outputs.report]
  | jp nnn | ldVx x kk | addVx x kk | ldI nnn => simp [instrOutputs, Outputs.none]

/-- An instruction that raises no output changes no cell (R66). -/
theorem exec_sameScreen_of_no_output {i : Instr} (h : instrOutputs i = Outputs.none) (s : State) :
    ∃ t, exec i s = .next t ∧ SameScreen s t := by
  cases i with
  | cls | drw ignored n | unknown op => cases h
  | jp nnn => exact ⟨_, exec_jp nnn s, fun _ _ => rfl⟩
  | ldVx x kk => exact ⟨_, exec_ldVx x kk s, fun _ _ => rfl⟩
  | addVx x kk => exact ⟨_, exec_addVx x kk s, fun _ _ => rfl⟩
  | ldI nnn => exact ⟨_, exec_ldI nnn s, fun _ _ => rfl⟩

/-! ### The outputs of a running step -/

/-- A running step raises the outputs of what the two bytes at PC decode to. -/
theorem stepOutputs_of_decodeWord {s : State} {i : Instr} (hrun : s.life = .running)
    (hdecode : decodeWord (s.wordAt s.pc.toNat) = i) : s.stepOutputs = instrOutputs i := by
  rw [stepOutputs_running hrun, State.fetchInstr, State.fetchWord, hdecode]

/-- A running step at a word whose instruction raises nothing raises nothing, and changes no cell. -/
theorem step_of_no_output {s : State} {i : Instr} (hrun : s.life = .running)
    (hdecode : decodeWord (s.wordAt s.pc.toNat) = i) (hnone : instrOutputs i = Outputs.none) :
    s.stepOutputs = Outputs.none ∧ ∃ t, step s = .next t ∧ SameScreen s t := by
  rw [stepOutputs_of_decodeWord hrun hdecode, step_of_decodeWord hrun hdecode]
  exact ⟨hnone, exec_sameScreen_of_no_output hnone s⟩

/-- Settles O30: the outputs are those of the decoded instruction, and the decoder reads CLS, a draw and an unknown
opcode from exactly the words named. -/
theorem outputsOfAStep : Obligations.OutputsOfAStep := by
  intro s hrun
  refine ⟨?_, fun op => ?_, ?_⟩
  · rw [stepOutputs_of_decodeWord hrun rfl, instrOutputs_renderRequest_iff, decodeWord_eq_cls_iff,
      decodeWord_eq_drw_iff]
    simp only [decodeWord_eq_unknown_iff, exists_eq_right]
  · rw [stepOutputs_of_decodeWord hrun rfl, instrOutputs_unknownOpcode_iff, decodeWord_eq_unknown_iff]
  · rintro (hjp | hldVx | haddVx | hldI)
    · exact step_of_no_output hrun (decodeWord_of_jpFamily hjp) rfl
    · exact step_of_no_output hrun (decodeWord_of_ldVxFamily hldVx) rfl
    · exact step_of_no_output hrun (decodeWord_of_addVxFamily haddVx) rfl
    · exact step_of_no_output hrun (decodeWord_of_ldIFamily hldI) rfl

/-! ### Clear screen (R60) -/

theorem State.cell_clear (s : State) (row : Fin 32) (col : Fin 64) :
    (s.setFb blankScreen).advance.cell row col = false := by
  rw [State.cell_advance, State.cell_setFb, cellOf_blankScreen]

/-- Settles O19: CLS replaces the framebuffer by the blank one and advances PC, and these two updates keep every other
field. -/
theorem clsClearsEveryCell : Obligations.ClsClearsEveryCell := by
  refine ⟨decodeWord_eq_cls_iff, fun s => ⟨_, exec_cls s, s.cell_clear, ?_, ?_, ?_, ?_, ?_, rfl⟩⟩
  · exact pcAdvanced_of_pc rfl
  · exact fun _ => rfl
  · rfl
  · exact fun _ => rfl
  · exact sameInert_of_fields rfl rfl rfl rfl rfl

end Sys2Proof.Machine

/-! PROOFS. The jump (R62). -/

namespace Sys2Proof.Machine

/-- After PC is set, the next fetch reads the word at the new PC. -/
theorem State.fetchWord_setPc (s : State) (w : Word) : (s.setPc w).fetchWord = s.wordAt w.toNat := rfl

/-- Settles O20: the jump is one update of PC, by the zero-extended operand, and that update keeps every other
field. -/
theorem jpSetsPcAndNothingElse : Obligations.JpSetsPcAndNothingElse := by
  refine ⟨fun w hlo hhi => ?_, fun nnn s => ⟨_, exec_jp nnn s, ?_, ?_, ?_, ?_, ?_, ?_, ?_⟩⟩
  · have hjp : w.toNat / 4096 = 0x1 := by omega
    exact decodeWord_of_jpFamily hjp
  · exact zextAddress_toNat nnn
  · rw [s.fetchWord_setPc, zextAddress_toNat]
  · exact s.reg_setPc _
  · exact s.setPc_i _
  · exact s.cell_setPc _
  · exact s.byteAt_setPc _
  · exact sameInert_of_fields rfl rfl rfl rfl rfl

end Sys2Proof.Machine

/-! PROOFS. The register load (R65). -/

namespace Sys2Proof.Machine

/-! ### A register write followed by the advance of PC -/

theorem State.reg_setReg_advance_same (s : State) (x : BitVec 4) (b : Byte) : (s.setReg x b).advance.reg x = b := by
  rw [State.reg_advance, State.reg_setReg_same]

theorem State.sameRegsBut_setReg_advance (s : State) (x : BitVec 4) (b : Byte) :
    SameRegsBut x s (s.setReg x b).advance := by
  intro y hne
  rw [State.reg_advance, State.reg_setReg_ne s hne]

/-- The frame of an instruction whose one write is to a general register: PC advances, and everything but that
register keeps its value. -/
theorem State.setReg_advance_frame (s : State) (x : BitVec 4) (b : Byte) :
    PcAdvanced s (s.setReg x b).advance ∧ SameRegsBut x s (s.setReg x b).advance ∧
      (s.setReg x b).advance.i = s.i ∧ SameScreen s (s.setReg x b).advance ∧
      SameMemory s (s.setReg x b).advance ∧ SameInert s (s.setReg x b).advance := by
  refine ⟨?_, s.sameRegsBut_setReg_advance x b, ?_, ?_, ?_, ?_⟩
  · exact pcAdvanced_of_pc rfl
  · rw [State.advance_i, State.setReg_i]
  · exact s.cell_setReg x b
  · exact s.byteAt_setReg x b
  · exact sameInert_of_fields rfl rfl rfl rfl rfl

/-- Settles O21: the words are those of high nibble 6, and the instruction is one register write and the advance of
PC. -/
theorem ldVxSetsTheRegister : Obligations.LdVxSetsTheRegister := by
  refine ⟨fun w hlo hhi => ?_, fun x kk s => ⟨_, exec_ldVx x kk s, ?_, ?_⟩⟩
  · have hfamily : w.toNat / 4096 = 0x6 := by omega
    exact decodeWord_of_ldVxFamily hfamily
  · exact s.reg_setReg_advance_same x kk
  · exact s.setReg_advance_frame x kk

end Sys2Proof.Machine

/-! PROOFS. The register addition (R67). -/

namespace Sys2Proof.Machine

/-- Settles O22: the words are those of high nibble 7, and the instruction is one register write, of the sum, and the
advance of PC; no flag is written, so VF changes only as the destination. -/
theorem addVxAddsModulo256WithoutFlag : Obligations.AddVxAddsModulo256WithoutFlag := by
  refine ⟨fun w hlo hhi => ?_, fun x kk s => ⟨_, exec_addVx x kk s, ?_, fun hx => ?_, ?_⟩⟩
  · have hfamily : w.toNat / 4096 = 0x7 := by omega
    exact decodeWord_of_addVxFamily hfamily
  · rw [s.reg_setReg_advance_same, addByte_toNat]
  · exact s.sameRegsBut_setReg_advance x _ 15 hx.symm
  · exact s.setReg_advance_frame x _

end Sys2Proof.Machine

/-! PROOFS. The index load (R70). -/

namespace Sys2Proof.Machine

/-- R70: after the index load, I[15:12] is zero. -/
theorem zextAddress_highNibble (nnn : BitVec 12) : (zextAddress nnn).extractLsb' 12 4 = 0 := by
  have hlt : (zextAddress nnn).toNat < 2 ^ 12 := Nat.lt_succ_of_le (zextAddress_valid nnn)
  apply BitVec.eq_of_toNat_eq
  rw [BitVec.extractLsb'_toNat, Nat.shiftRight_eq_div_pow, Nat.div_eq_of_lt hlt]
  rfl

/-- Settles O24: the words are those of high nibble A, and the instruction is one write of I, by the zero-extended
operand, and the advance of PC; these two updates keep every other field. -/
theorem ldISetsTheIndex : Obligations.LdISetsTheIndex := by
  refine ⟨fun w hlo hhi => ?_, fun nnn s => ⟨_, exec_ldI nnn s, ?_, ?_, ?_, ?_, ?_, ?_, ?_⟩⟩
  · have hfamily : w.toNat / 4096 = 0xA := by omega
    exact decodeWord_of_ldIFamily hfamily
  · exact zextAddress_toNat nnn
  · exact zextAddress_highNibble nnn
  · exact pcAdvanced_of_pc rfl
  · exact s.reg_setI (zextAddress nnn)
  · exact s.cell_setI (zextAddress nnn)
  · exact s.byteAt_setI (zextAddress nnn)
  · exact sameInert_of_fields rfl rfl rfl rfl rfl

end Sys2Proof.Machine

/-! PROOFS. The unknown opcode (R75). -/

namespace Sys2Proof.Machine

/-- Settles O29: a word of no family decodes to the unknown opcode with the whole word as its operand; its execution is
the identity on the state, and its outputs are the render request and the report of that operand. -/
theorem unknownOpcodeChangesNothing : Obligations.UnknownOpcodeChangesNothing := by
  refine ⟨exec_unknown, fun s hrun hunknown => ?_⟩
  have hdecode := decodeWord_of_fitsNoFamily hunknown
  have houtputs := stepOutputs_of_decodeWord hrun hdecode
  refine ⟨?_, ?_, ?_⟩
  · rw [step_of_decodeWord hrun hdecode, exec_unknown]
  · exact houtputs ▸ rfl
  · exact houtputs ▸ rfl

end Sys2Proof.Machine

/-! PROOFS. Construction (R92, R93). -/

namespace Sys2Proof.Machine

/-! ### The construction memory, byte by byte -/

theorem Memory.read_nil {a : Nat} (ha : a < 4096) : Memory.read [] a = Memory.unlisted a := by
  rw [Memory.read, Config.memSize_eq, Nat.mod_eq_of_lt ha, Memory.byteOf]

/-- The zero fill covers the font region, and an address above it reads as zero when it is not listed. -/
theorem Memory.read_zeroed {a : Nat} (ha : a < 4096) : Memory.zeroed.read a = 0 := by
  have hread := Memory.read_writeBytes Memory.wf_nil Config.fontBase (List.replicate Config.fontLen 0) (by decide) a ha
  rw [Memory.zeroed, hread]
  split_ifs with hfont
  · have hin : a - Config.fontBase < Config.fontLen := by simpa using hfont
    exact List.getD_replicate _ hin
  · have habove : 80 ≤ a := by simpa using hfont
    rw [Memory.read_nil ha, Memory.unlisted_of_ge habove]

/-- The font installer's writes stand in its region, and the zero fill everywhere above. -/
theorem Memory.read_withFont (font : Font) {a : Nat} (ha : a < 4096) :
    (Memory.withFont font).read a = if a < 80 then font.toList.getD a 0 else 0 := by
  have hread := Memory.read_writeBytes Memory.wf_zeroed Config.fontBase font.toList (by simp) a ha
  rw [Memory.withFont, hread, Memory.read_zeroed ha]
  simp

/-! ### The constructed state -/

section

variable (font : Font)

@[simp] theorem construct_sp : (construct font).sp = 0 := rfl
@[simp] theorem construct_dt : (construct font).dt = 0 := rfl
@[simp] theorem construct_st : (construct font).st = 0 := rfl

@[simp] theorem construct_reg (x : BitVec 4) : (construct font).reg x = 0 :=
  Vector.getElem_replicate x.isLt

@[simp] theorem construct_stackEntry (k : BitVec 4) : (construct font).stackEntry k = 0 :=
  Vector.getElem_replicate k.isLt

@[simp] theorem construct_cell (row : Fin 32) (col : Fin 64) : (construct font).cell row col = false :=
  cellOf_blankScreen row col

theorem construct_byteAt_of_lt {a : Nat} (h : a < 80) : (construct font).byteAt a = font[a] := by
  have ha : a < 4096 := by omega
  rw [State.byteAt, construct_mem, Memory.read_withFont font ha, if_pos h]
  simp [List.getD_eq_getElem?_getD, h]

theorem construct_byteAt_of_ge {a : Nat} (h : 80 ≤ a) (ha : a < 4096) : (construct font).byteAt a = 0 := by
  rw [State.byteAt, construct_mem, Memory.read_withFont font ha, if_neg (Nat.not_lt.mpr h)]

end

/-- Settles O13: the constructed state is zero field by field, and its memory reads as the font below 80 and as the
zero fill above. -/
theorem constructZeroesAndInstallsFont : Obligations.ConstructZeroesAndInstallsFont := by
  intro font
  refine ⟨construct_reg font, construct_i font, construct_pc font, construct_stackEntry font, construct_sp font,
    construct_dt font, construct_st font, construct_cell font, ?_, ?_, construct_life font⟩
  · exact fun a h => construct_byteAt_of_lt font h
  · exact fun a h ha => construct_byteAt_of_ge font h ha

end Sys2Proof.Machine

/-! PROOFS. The load of an image (R94) and the state the first step sees (R96). -/

namespace Sys2Proof.Machine

/-! ### Memory after a load -/

/-- The image, cut at the top of memory (D19), stands from 0x200; the rest of memory is as before. -/
theorem State.byteAt_loadImage {s : State} (hwf : Memory.wf s.mem) (image : List Byte) {a : Nat} (ha : a < 4096) :
    (s.loadImage image).byteAt a =
      if 0x200 ≤ a ∧ a < 0x200 + min image.length 3584 then (image.take 3584).getD (a - 0x200) 0
      else s.byteAt a := by
  have hlength : (image.take 3584).length = min image.length 3584 := by
    rw [List.length_take, Nat.min_comm]
  have hfit : 0x200 + (image.take 3584).length ≤ 4096 := by omega
  rw [State.byteAt, State.loadImage_mem, Memory.read_writeBytes hwf 0x200 _ hfit a ha, hlength, State.byteAt]

theorem State.byteAt_loadImage_image {s : State} (hwf : Memory.wf s.mem) {image : List Byte} {k : Nat}
    (hk : k < image.length) (hmax : k < 3584) : (s.loadImage image).byteAt (0x200 + k) = image.getD k 0 := by
  have ha : 0x200 + k < 4096 := by omega
  have hin : 0x200 ≤ 0x200 + k ∧ 0x200 + k < 0x200 + min image.length 3584 := by omega
  rw [State.byteAt_loadImage hwf image ha, if_pos hin, Nat.add_sub_cancel_left, List.getD_eq_getElem?_getD,
    List.getElem?_take_of_lt hmax, List.getD_eq_getElem?_getD]

theorem State.byteAt_loadImage_outside {s : State} (hwf : Memory.wf s.mem) {image : List Byte} {a : Nat}
    (ha : a < 4096) (hout : ¬ (0x200 ≤ a ∧ a < 0x200 + min image.length 3584)) :
    (s.loadImage image).byteAt a = s.byteAt a := by
  rw [State.byteAt_loadImage hwf image ha, if_neg hout]

/-- Settles O15: an accepted load is the update `State.loadImage`, whose memory is the image over the old bytes, and
which keeps every field but PC, I and LIFE. -/
theorem loadWritesTheImageAndNothingElse : Obligations.LoadWritesTheImageAndNothingElse := by
  intro s image hempty hwf hne
  refine ⟨s.loadImage image, load_cons hempty hne, s.loadImage_pc image, s.loadImage_i image, s.loadImage_life image,
    ?_, ?_, ?_, ?_, ?_, s.loadImage_sp image, s.loadImage_dt image, s.loadImage_st image⟩
  · exact fun k hk hmax => State.byteAt_loadImage_image hwf hk hmax
  · exact fun a ha hout => State.byteAt_loadImage_outside hwf ha hout
  · exact fun _ => rfl
  · exact fun _ _ => rfl
  · exact fun _ => rfl

/-- Settles O17: the load of R94 from the constructed state of R92, read field by field. -/
theorem stateOfTheFirstStep : Obligations.StateOfTheFirstStep := by
  intro font image hne
  obtain ⟨t, hload, hpc, hi, hlife, himage, hrest, hreg, hcell, hstack, hsp, hdt, hst⟩ :=
    loadWritesTheImageAndNothingElse (construct font) image (construct_life font) (Memory.wf_withFont font) hne
  refine ⟨t, hload, fun x => ?_, hi, hpc, fun k => ?_, ?_, ?_, ?_, fun a h => ?_, fun a hlo hhi => ?_, fun k hk => ?_,
    fun a hlo hhi => ?_, fun row col => ?_, hlife⟩
  · rw [hreg x, construct_reg]
  · rw [hstack k, construct_stackEntry]
  · rw [hsp, construct_sp]
  · rw [hdt, construct_dt]
  · rw [hst, construct_st]
  · rw [hrest a (by omega) (by omega), construct_byteAt_of_lt font h]
  · rw [hrest a (by omega) (by omega), construct_byteAt_of_ge font hlo (by omega)]
  · exact himage k (by omega) (by omega)
  · rw [hrest a hhi (by omega), construct_byteAt_of_ge font (by omega) hhi]
  · rw [hcell row col, construct_cell]

end Sys2Proof.Machine

/-! PROOFS. LIFE: steps and runs keep it RUNNING (R98), a failed load ends it (R95), and what each of its values
accepts (R97). -/

namespace Sys2Proof.Machine

/-! ### Steps and runs of a running machine (R98) -/

theorem exec_completes (i : Instr) (s : State) : ∃ t, exec i s = .next t := by
  obtain ⟨t, hexec, _⟩ := exec_pcAfter i s
  exact ⟨t, hexec⟩

theorem exec_life {i : Instr} {s t : State} (h : exec i s = .next t) : t.life = s.life := by
  obtain ⟨_, _, _, _, _, hlife⟩ := exec_inert h
  exact hlife

/-- A running step completes, the unknown-opcode step included, and leaves the machine running. -/
theorem step_stays_running {s : State} (h : s.life = .running) : ∃ t, step s = .next t ∧ t.life = .running := by
  obtain ⟨t, hexec⟩ := exec_completes s.fetchInstr s
  exact ⟨t, (step_running h).trans hexec, (exec_life hexec).trans h⟩

theorem runSteps_stays_running {s : State} (h : s.life = .running) (k : Nat) :
    ∃ t, runSteps k s = .next t ∧ t.life = .running := by
  induction k generalizing s with
  | zero => exact ⟨s, runSteps_zero s, h⟩
  | succ k ih =>
    obtain ⟨u, hstep, hu⟩ := step_stays_running h
    rw [runSteps_succ_of_step hstep k]
    exact ih hu

/-- Settles O35: every arm of `exec` completes and keeps LIFE, so a running step does, and by induction every run. -/
theorem noRunningStepStops : Obligations.NoRunningStepStops :=
  ⟨exec_completes, fun _ k h => runSteps_stays_running h k⟩

/-! ### The failed load (R95) -/

/-- Settles O16: the load of the empty image is one update of LIFE, and a run of a machine that is not running is
refused at its first step. -/
theorem emptyImageFailsTheLoadForGood : Obligations.EmptyImageFailsTheLoadForGood := by
  intro s hempty
  refine ⟨⟨{ s with life := .failed }, load_nil hempty, rfl, rfl, rfl, ?_, ?_, ?_, ?_, rfl, rfl, rfl, ?_⟩, ?_⟩
  · exact fun _ => rfl
  · exact fun _ => rfl
  · exact fun _ _ => rfl
  · exact fun _ => rfl
  · exact runSteps_succ_of_refused (step_failed rfl)
  · exact runSteps_succ_of_refused (step_empty hempty)

/-! ### The lifecycle table (R97) -/

/-- Settles O18: `onEvent` hands each event to its own function, so each cell of the table is that function's rule in
that value of LIFE. -/
theorem lifecycleTable : Obligations.LifecycleTable := by
  refine ⟨fun font s => ?_, fun s hempty => ⟨fun image hne => ?_, ?_, ?_⟩, fun s hrun => ⟨fun image => ?_, ?_⟩,
    fun s hfailed => ⟨fun image => ?_, ?_⟩⟩
  · exact ⟨construct font, rfl, construct_life font, rfl⟩
  · exact ⟨s.loadImage image, load_cons hempty hne, s.loadImage_life image⟩
  · exact ⟨_, load_nil hempty, rfl⟩
  · exact ⟨_, step_empty hempty⟩
  · exact ⟨_, load_running hrun image⟩
  · exact step_stays_running hrun
  · exact ⟨_, load_failed hfailed image⟩
  · exact ⟨_, step_failed hfailed⟩

end Sys2Proof.Machine

/-! PROOFS. The round trip of the encoding (R46, R47, R50) and the step of a decoded or placed word. -/

namespace Sys2Proof.Machine

/-! ### Decoding an encoded instruction (R46, R47) -/

/-- The operands of a well-formed instruction stand in its word where the decoder reads them. -/
theorem decodeWord_encodeWord {i : Instr} (hwf : i.wellFormed = true) : decodeWord (encodeWord i) = i := by
  cases i with
  | cls => exact decodeWord_clsWord
  | jp nnn =>
    have hword := encodeWord_jp_toNat nnn
    have hnnn : opNnn (encodeWord (.jp nnn)) = nnn := BitVec.eq_of_toNat_eq (by rw [opNnn_toNat]; omega)
    rw [decodeWord_of_jpFamily (by omega), hnnn]
  | ldVx x kk =>
    have hword := encodeWord_ldVx_toNat x kk
    have hx : opX (encodeWord (.ldVx x kk)) = x := BitVec.eq_of_toNat_eq (by rw [opX_toNat]; omega)
    have hkk : opKk (encodeWord (.ldVx x kk)) = kk := BitVec.eq_of_toNat_eq (by rw [opKk_toNat]; omega)
    rw [decodeWord_of_ldVxFamily (by omega), hx, hkk]
  | addVx x kk =>
    have hword := encodeWord_addVx_toNat x kk
    have hx : opX (encodeWord (.addVx x kk)) = x := BitVec.eq_of_toNat_eq (by rw [opX_toNat]; omega)
    have hkk : opKk (encodeWord (.addVx x kk)) = kk := BitVec.eq_of_toNat_eq (by rw [opKk_toNat]; omega)
    rw [decodeWord_of_addVxFamily (by omega), hx, hkk]
  | ldI nnn =>
    have hword := encodeWord_ldI_toNat nnn
    have hnnn : opNnn (encodeWord (.ldI nnn)) = nnn := BitVec.eq_of_toNat_eq (by rw [opNnn_toNat]; omega)
    rw [decodeWord_of_ldIFamily (by omega), hnnn]
  | drw ignored n =>
    have hword := encodeWord_drw_toNat ignored n
    have hignored : opIgnored (encodeWord (.drw ignored n)) = ignored :=
      BitVec.eq_of_toNat_eq (by rw [opIgnored_toNat]; omega)
    have hn : opN (encodeWord (.drw ignored n)) = n := BitVec.eq_of_toNat_eq (by rw [opN_toNat]; omega)
    rw [decodeWord_of_drwFamily (by omega), hignored, hn]
  | unknown op => exact decodeWord_of_fitsNoFamily hwf

/-- The decoder sees the word of the two encoded bytes alone. -/
theorem decode_encode_append (i : Instr) (rest : List Byte) :
    decode (encode i ++ rest) = .ok (decodeWord (encodeWord i), rest) := by
  rw [encode, List.cons_append, List.cons_append, List.nil_append, decode_two, wordOfBytes_bytes]

/-- Settles O2: the two bytes make the instruction's word again, and the word decodes to the instruction. -/
theorem decodeGivesBackEncodedInstruction : Obligations.DecodeGivesBackEncodedInstruction := by
  intro i rest hwf
  rw [decode_encode_append, decodeWord_encodeWord hwf]

/-! ### Encoding a decoded word (R50) -/

/-- The decoder answers `unknown` at words of no family alone. -/
theorem decodeWord_wellFormed (w : Word) : (decodeWord w).wellFormed = true := by
  cases hdecode : decodeWord w with
  | cls | jp nnn | ldVx x kk | addVx x kk | ldI nnn | drw ignored n => rfl
  | unknown op =>
    obtain ⟨hnone, rfl⟩ := (decodeWord_eq_unknown_iff w op).mp hdecode
    exact hnone

/-- Settles O3: the instruction is the decoded word, which encodes to that word, and the word is its two bytes. -/
theorem encodeGivesBackDecodedBytes : Obligations.EncodeGivesBackDecodedBytes := by
  intro hi lo rest
  refine ⟨decodeWord (wordOfBytes hi lo), decode_two hi lo rest, decodeWord_wellFormed _, ?_⟩
  rw [encode, encodeWord_decodeWord, highByte_wordOfBytes, lowByte_wordOfBytes]

/-! ### The places of the operands (R46) -/

theorem eq_encodeWord_of_decodeWord {w : Word} {i : Instr} (h : decodeWord w = i) : w = encodeWord i := by
  rw [← h, encodeWord_decodeWord]

/-- Settles O5: the word is the encoding of what it decodes to, whose number the formats give. -/
theorem operandFieldsMakeTheWord : Obligations.OperandFieldsMakeTheWord := by
  intro w
  refine ⟨fun nnn h => ?_, fun x kk h => ?_, fun x kk h => ?_, fun nnn h => ?_, fun ignored n h => ?_, fun op h => ?_⟩
  · rw [eq_encodeWord_of_decodeWord h, encodeWord_jp_toNat]
  · rw [eq_encodeWord_of_decodeWord h, encodeWord_ldVx_toNat]
  · rw [eq_encodeWord_of_decodeWord h, encodeWord_addVx_toNat]
  · rw [eq_encodeWord_of_decodeWord h, encodeWord_ldI_toNat]
  · rw [eq_encodeWord_of_decodeWord h, encodeWord_drw_toNat]
  · exact (eq_encodeWord_of_decodeWord h).symm

/-- Settles O1: each of the seven words is evaluated by the decoder. -/
theorem specWordsDecode : Obligations.SpecWordsDecode := by
  refine ⟨?_, ?_, ?_, ?_, ?_, ?_, ?_⟩ <;> decide

/-! ### The step of the decoded instruction (R50) -/

/-- Settles O7: the two bytes decoded are those of the fetched word. -/
theorem stepRunsTheDecodedInstruction : Obligations.StepRunsTheDecodedInstruction := by
  intro s i hrun _ hdecode
  rw [decode_two] at hdecode
  have hword : decodeWord (s.wordAt s.pc.toNat) = i := congrArg Prod.fst (Except.ok.inj hdecode)
  exact step_of_decodeWord hrun hword

/-! ### The placed instruction (R45, R94) -/

/-- A word written at any address, the top of memory included, is read back from there. -/
theorem Memory.read2_writeBytes_word {m : Memory} (hwf : Memory.wf m) (addr : Nat) (w : Word) :
    (m.writeBytes addr [highByte w, lowByte w]).read2 addr = w := by
  have hnext : (addr + 1) % 4096 ≠ addr % 4096 := by omega
  have hlow := Memory.wf_write hwf (addr + 1) (lowByte w)
  simp only [Memory.writeBytes]
  rw [Memory.read2_eq_wordOfBytes, Memory.read_write hlow, if_pos rfl, Memory.read_write hlow, if_neg hnext,
    Memory.read_write hwf, if_pos rfl, wordOfBytes_bytes]

theorem State.placeInstruction_life (s : State) (bytes : List Byte) : (s.placeInstruction bytes).life = .running := by
  cases hlife : s.life <;> simp [State.placeInstruction, hlife]

/-- The placed word is the next one fetched, whether it is written at PC or loaded as the image. -/
theorem State.fetchWord_placeInstruction {s : State} (hwf : Memory.wf s.mem) (w : Word) :
    (s.placeInstruction [highByte w, lowByte w]).fetchWord = w := by
  cases hlife : s.life with
  | running =>
    rw [State.placeInstruction, hlife]
    exact Memory.read2_writeBytes_word hwf s.pc.toNat w
  | empty | failed =>
    rw [State.placeInstruction, hlife]
    exact Memory.read2_writeBytes_word hwf 0x200 w

/-- A word of sixteen bits is the one its own number stands for in the table. -/
theorem tableWord_toNat (w : Word) : tableWord 16 w.toNat = w := by
  rw [tableWord, Nat.mod_eq_of_lt w.isLt, BitVec.ofNat_toNat, BitVec.setWidth_eq]

theorem decodeTableWord_toNat (w : Word) : decodeTableWord 16 w.toNat = some (decodeWord w) := by
  rw [decodeTableWord, tableWord_toNat, decode_two, wordOfBytes_bytes]

/-- Settles O9: the placed word is fetched by a running machine and decodes to the instruction it encodes. -/
theorem placedInstructionIsTheNextRun : Obligations.PlacedInstructionIsTheNextRun := by
  intro s i hmem hwf
  refine ⟨?_, ?_⟩
  · rw [decodeTableWord_toNat, decodeWord_encodeWord hwf]
  · have hrun : (s.withFetchWord 16 (encodeWord i).toNat).life = .running := s.placeInstruction_life _
    have hfetch : (s.withFetchWord 16 (encodeWord i).toNat).fetchWord = encodeWord i := by
      rw [State.withFetchWord, tableWord_toNat, State.fetchWord_placeInstruction hmem]
    rw [step_running hrun, State.fetchInstr, hfetch, decodeWord_encodeWord hwf]

end Sys2Proof.Machine

/-! PROOFS. The invariant (R29): construction, load, every step, every reachable state. -/

namespace Sys2Proof.Machine

/-! ### What an instruction does to PC and I (R17, R70) -/

theorem exec_pc {i : Instr} {s t : State} (h : exec i s = .next t) : t.pc = pcAfter i s.pc := by
  obtain ⟨u, hu, hpc⟩ := exec_pcAfter i s
  cases h.symm.trans hu
  exact hpc

/-- The index register is written by the index load alone, with its operand. -/
theorem exec_index {i : Instr} {s t : State} (h : exec i s = .next t) :
    t.i = s.i ∨ ∃ nnn, i = .ldI nnn ∧ t.i = zextAddress nnn := by
  cases i with
  | ldI nnn => cases h; exact .inr ⟨nnn, rfl, rfl⟩
  | cls | jp nnn | ldVx x kk | addVx x kk | drw ignored n | unknown op => cases h; exact .inl rfl

/-! ### Steps keep the invariant -/

/-- A step is the execution of some instruction. -/
theorem exec_of_step {s t : State} (h : step s = .next t) : exec s.fetchInstr s = .next t := by
  rw [← step_running (running_of_step h), h]

theorem exec_keeps_inv {i : Instr} {s t : State} (hinv : Inv s) (h : exec i s = .next t) : Inv t := by
  obtain ⟨hmem, hstack, hsp, hdt, hst, _⟩ := exec_inert h
  constructor
  case memory => rw [hmem]; exact hinv.memory
  case pc => rw [exec_pc h]; exact pcAfter_valid i hinv.pc
  case index =>
    obtain hi | ⟨nnn, _, hi⟩ := exec_index h
    · rw [hi]; exact hinv.index
    · rw [hi]; exact zextAddress_valid nnn
  case stack => intro k; rw [State.stackEntry, hstack]; exact hinv.stack k
  case sp => rw [hsp, hinv.sp]
  case delay => rw [hdt, hinv.delay]
  case sound => rw [hst, hinv.sound]

/-- Settles O40: every instruction keeps the invariant: it leaves memory and the inert registers alone, and writes only
valid addresses to PC and I. -/
theorem stepKeepsTheInvariant : Obligations.StepKeepsTheInvariant :=
  fun _ _ hinv hstep => exec_keeps_inv hinv (exec_of_step hstep)

/-! ### Construction and load (R92, R94, R95) -/

theorem construct_inv (font : Font) : Inv (construct font) where
  memory := Memory.wf_withFont font
  pc := Nat.zero_le _
  index := Nat.zero_le _
  stack := construct_stackEntry font
  sp := construct_sp font
  delay := construct_dt font
  sound := construct_st font

theorem loadImage_keeps_inv {s : State} (hinv : Inv s) (image : List Byte) : Inv (s.loadImage image) where
  memory := by rw [State.loadImage_mem]; exact Memory.wf_writeBytes hinv.memory _ _
  pc := by rw [State.loadImage_pc]; decide
  index := by rw [State.loadImage_i]; decide
  stack := hinv.stack
  sp := hinv.sp
  delay := hinv.delay
  sound := hinv.sound

/-- What an accepted load can do: fail, changing LIFE alone, or load its image. -/
theorem load_cases {s t : State} {image : List Byte} (h : load image s = .next t) :
    t = { s with life := .failed } ∨ t = s.loadImage image := by
  cases hlife : s.life with
  | running => rw [load_running hlife] at h; cases h
  | failed => rw [load_failed hlife] at h; cases h
  | empty =>
    by_cases himage : image = []
    · rw [himage, load_nil hlife] at h; cases h; exact .inl rfl
    · rw [load_cons hlife himage] at h; cases h; exact .inr rfl

/-- Settles O41: construction sets what the invariant speaks of, and a load changes of it memory, PC and I at most. -/
theorem constructAndLoadMeetTheInvariant : Obligations.ConstructAndLoadMeetTheInvariant := by
  refine ⟨construct_inv, fun s t image hinv hload => ?_⟩
  obtain rfl | rfl := load_cases hload
  · exact { hinv with }
  · exact loadImage_keeps_inv hinv image

/-! ### Every reachable state (10_state.md section 9) -/

theorem step_mem {s t : State} (h : step s = .next t) : t.mem = s.mem := by
  obtain ⟨hmem, _⟩ := exec_inert (exec_of_step h)
  exact hmem

theorem runSteps_mem {s t : State} {k : Nat} (h : runSteps k s = .next t) : t.mem = s.mem :=
  runSteps_induction (P := fun u => u.mem = s.mem) (fun _ _ hu hstep => (step_mem hstep).trans hu) rfl h

theorem runSteps_inv {s t : State} {k : Nat} (hinv : Inv s) (h : runSteps k s = .next t) : Inv t :=
  runSteps_induction stepKeepsTheInvariant hinv h

/-- Settles O42: the loaded state meets the invariant and runs, and every step keeps the invariant, memory and LIFE. -/
theorem reachableStates : Obligations.ReachableStates := by
  intro font image k hne
  have hload : load image (construct font) = .next ((construct font).loadImage image) :=
    load_cons (construct_life font) hne
  obtain ⟨t, hrun, hlife⟩ := runSteps_stays_running (State.loadImage_life (construct font) image) k
  have hinv : Inv t := runSteps_inv (loadImage_keeps_inv (construct_inv font) image) hrun
  refine ⟨_, t, hload, ?_, hinv.pc, hinv.index, hinv.sp, hinv.delay, hinv.sound, hinv.stack, ?_, hlife⟩
  · rw [bootAndRun, hload]
    exact hrun
  · exact State.byteAt_eq_of_mem (runSteps_mem hrun)

end Sys2Proof.Machine

/-! PROOFS. Canonical memories (20_memory.md), the reset state (R27, R29), the sums of the addition and of the draw's
addresses (R68, R72), and the alternative of R71. -/

namespace Sys2Proof.Machine

/-! ### Canonical memories that read alike -/

/-- The first listed address of a canonical memory does not read as unlisted. -/
theorem Memory.byteOf_head_ne_unlisted {c : Host.Cell} {m : Memory} (hwf : Memory.wf (c :: m)) :
    Memory.byteOf (c :: m) c.1 ≠ Memory.unlisted c.1 := by
  obtain ⟨_, hlisted⟩ := hwf.2 c (List.mem_cons_self ..)
  rwa [Memory.byteOf, if_pos rfl]

/-- If two canonical memories read alike, the first listed address of one is not below that of the other. -/
theorem Memory.head_not_lt {c c' : Host.Cell} {m m' : Memory} (hwf : Memory.wf (c :: m)) (hwf' : Memory.wf (c' :: m'))
    (halike : Memory.byteOf (c :: m) c.1 = Memory.byteOf (c' :: m') c.1) : ¬ c.1 < c'.1 := by
  intro hlt
  have hbelow : ∀ d ∈ c' :: m', c.1 < d.1 := by
    intro d hd
    rcases List.mem_cons.mp hd with rfl | hd
    · exact hlt
    · exact Nat.lt_trans hlt (Memory.wf_head_lt hwf' d hd)
  exact Memory.byteOf_head_ne_unlisted hwf (halike.trans (Memory.byteOf_of_forall_lt hbelow))

/-- Canonical memories with the same first cell that read alike have tails that read alike: the first address reads as
unlisted in both. -/
theorem Memory.byteOf_tail_eq {c : Host.Cell} {m m' : Memory} (hwf : Memory.wf (c :: m)) (hwf' : Memory.wf (c :: m'))
    {a : Nat} (halike : Memory.byteOf (c :: m) a = Memory.byteOf (c :: m') a) : m.byteOf a = m'.byteOf a := by
  by_cases ha : a = c.1
  · subst ha
    rw [Memory.byteOf_of_forall_lt (Memory.wf_head_lt hwf), Memory.byteOf_of_forall_lt (Memory.wf_head_lt hwf')]
  · rwa [Memory.byteOf, Memory.byteOf, if_neg ha, if_neg ha] at halike

theorem Memory.eq_of_byteOf_eq {m m' : Memory} (hwf : Memory.wf m) (hwf' : Memory.wf m')
    (halike : ∀ a, a < 4096 → m.byteOf a = m'.byteOf a) : m = m' := by
  induction m generalizing m' with
  | nil =>
    cases m' with
    | nil => rfl
    | cons c' m' =>
      obtain ⟨hlt, _⟩ := hwf'.2 c' (List.mem_cons_self ..)
      exact absurd (halike c'.1 hlt).symm (Memory.byteOf_head_ne_unlisted hwf')
  | cons c m ih =>
    obtain ⟨hlt, _⟩ := hwf.2 c (List.mem_cons_self ..)
    cases m' with
    | nil => exact absurd (halike c.1 hlt) (Memory.byteOf_head_ne_unlisted hwf)
    | cons c' m' =>
      obtain ⟨hlt', _⟩ := hwf'.2 c' (List.mem_cons_self ..)
      have haddr : c'.1 = c.1 :=
        Nat.le_antisymm (Nat.not_lt.mp (Memory.head_not_lt hwf hwf' (halike _ hlt)))
          (Nat.not_lt.mp (Memory.head_not_lt hwf' hwf (halike _ hlt').symm))
      have hbyte : c'.2 = c.2 := by
        have hread := halike c.1 hlt
        rw [Memory.byteOf, Memory.byteOf, if_pos rfl, if_pos haddr.symm] at hread
        exact hread.symm
      obtain rfl : c' = c := Prod.ext haddr hbyte
      have htail : m = m' := ih (Memory.wf_tail hwf) (Memory.wf_tail hwf') fun a ha =>
        Memory.byteOf_tail_eq hwf hwf' (halike a ha)
      rw [htail]

/-- Settles O11: compared from their first listed addresses on, the memories list the same cells. -/
theorem canonicalMemoriesReadingAlikeAreEqual : Obligations.CanonicalMemoriesReadingAlikeAreEqual := by
  intro m m' hwf hwf' halike
  refine Memory.eq_of_byteOf_eq hwf hwf' fun a ha => ?_
  have hread := halike a ha
  rwa [Memory.read, Memory.read, Config.memSize_eq, Nat.mod_eq_of_lt ha] at hread

/-! ### The reset state (first column of R27) -/

theorem defaultFont_toList : defaultFont.toList = defaultFontBytes := by decide

/-- What the font installer writes with the default font is what an address that memory does not list reads as. -/
theorem Memory.read_withFont_default {a : Nat} (ha : a < 4096) :
    (Memory.withFont defaultFont).read a = Memory.unlisted a := by
  rw [Memory.read_withFont defaultFont ha]
  split_ifs with hfont
  · rw [defaultFont_toList, Memory.unlisted]
  · rw [Memory.unlisted_of_ge (Nat.not_lt.mp hfont)]

/-- The construction with the default font and `State.reset` are one state. -/
theorem construct_defaultFont : construct defaultFont = State.reset := by
  have hmem : Memory.withFont defaultFont = [] :=
    canonicalMemoriesReadingAlikeAreEqual _ _ (Memory.wf_withFont defaultFont) Memory.wf_nil fun a ha => by
      rw [Memory.read_withFont_default ha, Memory.read_nil ha]
  rw [construct, hmem, State.reset]

/-- Settles O14: `State.reset` is a constructed state, which is zero field by field. -/
theorem resetIsConstructionWithTheDefaultFont : Obligations.ResetIsConstructionWithTheDefaultFont := by
  unfold Obligations.ResetIsConstructionWithTheDefaultFont
  rw [← construct_defaultFont]
  exact ⟨construct_reg _, construct_i _, construct_pc _, construct_stackEntry _, construct_sp _, construct_dt _,
    construct_st _, construct_cell _, construct_life _, fun _ => rfl⟩

/-- Settles O39: `State.reset` is a constructed state, which meets the invariant. -/
theorem resetMeetsTheInvariant : Obligations.ResetMeetsTheInvariant := by
  unfold Obligations.ResetMeetsTheInvariant
  rw [← construct_defaultFont]
  exact construct_inv defaultFont

/-! ### Sums (R68, R72) -/

/-- Read as two's complement, the byte sum is the sum of the operands so read. -/
theorem addByte_eq_ofInt (a b : Byte) : addByte a b = BitVec.ofInt 8 (a.toInt + b.toInt) := by
  rw [addByte_eq_add, BitVec.ofInt_add, BitVec.ofInt_toInt, BitVec.ofInt_toInt]

/-- Adding `256 - k` subtracts `k`. -/
theorem addByte_eq_sub {b : Byte} (hb : b ≠ 0) (a : Byte) : addByte a b = a - BitVec.ofNat 8 (256 - b.toNat) := by
  have hpos : b.toNat ≠ 0 := fun h => hb (BitVec.eq_of_toNat_eq h)
  have ha := a.isLt
  have hlt := b.isLt
  apply BitVec.eq_of_toNat_eq
  rw [addByte_toNat, BitVec.toNat_sub, BitVec.toNat_ofNat]
  omega

/-- Settles O23: a sum cut to 8 or 16 bits loses multiples of 256 or 65536, which the later reduction modulo 32, 64 or
4096 loses anyway. -/
theorem sumsAreModularUnsigned : Obligations.SumsAreModularUnsigned := by
  refine ⟨fun x kk s => ⟨_, exec_addVx x kk s, ?_, fun hkk => ?_⟩, fun y r => ?_, fun x c => ?_, fun s r => ?_⟩
  · rw [s.reg_setReg_advance_same, addByte_eq_ofInt]
  · rw [s.reg_setReg_advance_same, addByte_eq_sub hkk]
  · rw [spriteRow_val, BitVec.toNat_add, BitVec.toNat_ofNat]
    omega
  · rw [spriteColumn_val, BitVec.toNat_add, BitVec.toNat_ofNat]
    omega
  · have hmod : (s.i.toNat + r) % 4096 = (s.i + BitVec.ofNat 16 r).toNat % 4096 := by
      rw [BitVec.toNat_add, BitVec.toNat_ofNat]
      omega
    rw [State.spriteByte, ← s.byteAt_mod, hmod, s.byteAt_mod]

/-! ### SET_INDEX_ASSIGNS (R71) -/

theorem setIndex_false (nnn : BitVec 12) (s : State) : setIndex false nnn s = s.advance := rfl

/-- Settles O25: the alternative is the advance of PC alone, and the machine's constant is true. -/
theorem setIndexAlternativeChangesOnlyPc : Obligations.SetIndexAlternativeChangesOnlyPc := by
  intro nnn s
  rw [setIndex_false]
  refine ⟨pcAdvanced_of_pc rfl, s.advance_i, s.reg_advance, s.cell_advance, s.byteAt_advance, ?_, exec_ldI nnn s⟩
  exact sameInert_of_fields rfl rfl rfl rfl rfl

end Sys2Proof.Machine

/-! PROOFS. The draw's loops against its closed form (R72, R73), the double draw, and what a draw reads (R36). -/

namespace Sys2Proof.Machine

/-! ### Striking a set of cells once each -/

/-- `cv'` is `cv` after each of these cells has been struck once: they are toggled, no other cell is, and a collision
is recorded if one of them was 1. -/
structure Struck (cells : Fin 32 → Fin 64 → Prop) (cv cv' : Canvas) : Prop where
  inside : ∀ row col, cells row col → cellOf cv'.fb row col = !cellOf cv.fb row col
  outside : ∀ row col, ¬ cells row col → cellOf cv'.fb row col = cellOf cv.fb row col
  hit : cv'.hit = true ↔ cv.hit = true ∨ ∃ row col, cells row col ∧ cellOf cv.fb row col = true

theorem Struck.of_no_cells {cells : Fin 32 → Fin 64 → Prop} (hnone : ∀ row col, ¬ cells row col) (cv : Canvas) :
    Struck cells cv cv where
  inside := fun row col h => absurd h (hnone row col)
  outside := fun _ _ _ => rfl
  hit := by simp [hnone]

/-- Sets of cells struck one after the other are struck together, if they have no cell in common. -/
theorem Struck.trans {first second both : Fin 32 → Fin 64 → Prop} {cv cv' cv'' : Canvas}
    (hfirst : Struck first cv cv') (hsecond : Struck second cv' cv'')
    (hboth : ∀ row col, both row col ↔ first row col ∨ second row col)
    (hdisjoint : ∀ row col, first row col → ¬ second row col) : Struck both cv cv'' where
  inside := by
    intro row col h
    rcases (hboth row col).mp h with h | h
    · rw [hsecond.outside row col (hdisjoint row col h), hfirst.inside row col h]
    · rw [hsecond.inside row col h, hfirst.outside row col fun h' => hdisjoint row col h' h]
  outside := by
    intro row col h
    obtain ⟨hnot, hnot'⟩ := not_or.mp (mt (hboth row col).mpr h)
    rw [hsecond.outside row col hnot', hfirst.outside row col hnot]
  hit := by
    have hkept : ∀ row col, second row col → cellOf cv'.fb row col = cellOf cv.fb row col :=
      fun row col h => hfirst.outside row col fun h' => hdisjoint row col h' h
    rw [hsecond.hit, hfirst.hit, or_assoc]
    refine or_congr_right ⟨?_, ?_⟩
    · rintro (⟨row, col, h, hone⟩ | ⟨row, col, h, hone⟩)
      · exact ⟨row, col, (hboth row col).mpr (.inl h), hone⟩
      · exact ⟨row, col, (hboth row col).mpr (.inr h), hkept row col h ▸ hone⟩
    · rintro ⟨row, col, h, hone⟩
      rcases (hboth row col).mp h with h | h
      · exact .inl ⟨row, col, h, hone⟩
      · exact .inr ⟨row, col, h, (hkept row col h).trans hone⟩

/-- The cells of the first `n` rounds of a loop. -/
def CellsOfRounds (cells : Nat → Fin 32 → Fin 64 → Prop) (n : Nat) (row : Fin 32) (col : Fin 64) : Prop :=
  ∃ k, k < n ∧ cells k row col

theorem not_cellsOfRounds_zero (cells : Nat → Fin 32 → Fin 64 → Prop) (row : Fin 32) (col : Fin 64) :
    ¬ CellsOfRounds cells 0 row col :=
  fun ⟨_, hk, _⟩ => Nat.not_lt_zero _ hk

theorem cellsOfRounds_succ_iff (cells : Nat → Fin 32 → Fin 64 → Prop) (n : Nat) (row : Fin 32) (col : Fin 64) :
    CellsOfRounds cells (n + 1) row col ↔ CellsOfRounds cells n row col ∨ cells n row col := by
  simp only [CellsOfRounds, Nat.lt_succ_iff_lt_or_eq, or_and_right, exists_or, exists_eq_left]

/-- A loop whose rounds strike cells that no other round strikes. -/
theorem struck_forUpTo {cells : Nat → Fin 32 → Fin 64 → Prop} {body : Nat → Canvas → Canvas} {n : Nat}
    (hround : ∀ k cv, Struck (cells k) cv (body k cv))
    (hdisjoint : ∀ j k row col, j < n → k < n → cells j row col → cells k row col → j = k) (cv : Canvas) :
    Struck (CellsOfRounds cells n) cv (forUpTo n body cv) := by
  refine forUpTo_induction (fun m cv' => Struck (CellsOfRounds cells m) cv cv') ?_ fun m cv' hm hbefore => ?_
  · exact Struck.of_no_cells (not_cellsOfRounds_zero cells) cv
  · refine hbefore.trans (hround m cv') (cellsOfRounds_succ_iff cells m) ?_
    rintro row col ⟨j, hj, hcell⟩ hcell'
    exact absurd (hdisjoint j m row col (Nat.lt_trans hj hm) hm hcell hcell') (Nat.ne_of_lt hj)

/-! ### The draw strikes the cells of its sprite -/

theorem spriteRow_injective {y : Byte} {r r' : Nat} (hr : r < 16) (hr' : r' < 16)
    (h : spriteRow y r = spriteRow y r') : r = r' := by
  have hval := congrArg Fin.val h
  rw [spriteRow_val, spriteRow_val] at hval
  omega

theorem spriteColumn_injective {x : Byte} {c c' : Nat} (hc : c < 8) (hc' : c' < 8)
    (h : spriteColumn x c = spriteColumn x c') : c = c' := by
  have hval := congrArg Fin.val h
  rw [spriteColumn_val, spriteColumn_val] at hval
  omega

/-- The cell of one sprite bit, if the bit is set (R72 step 3). -/
def BitCell (x y : Byte) (r : Nat) (b : Byte) (c : Nat) (row : Fin 32) (col : Fin 64) : Prop :=
  spriteBit b c = true ∧ row = spriteRow y r ∧ col = spriteColumn x c

/-- The cells of the first `n` rows of a sprite, bit by bit. -/
def SpriteCells (x y : Byte) (sprite : Nat → Byte) (n : Nat) : Fin 32 → Fin 64 → Prop :=
  CellsOfRounds (fun r => CellsOfRounds (BitCell x y r (sprite r)) 8) n

theorem struck_drawBit (x y : Byte) (r : Nat) (b : Byte) (c : Nat) (cv : Canvas) :
    Struck (BitCell x y r b c) cv (cv.drawBit x y r b c) where
  inside := fun row col h => (cv.drawBit_cell x y r b c row col).trans (if_pos h)
  outside := fun row col h => (cv.drawBit_cell x y r b c row col).trans (if_neg h)
  hit := by
    rw [Canvas.drawBit_hit, Bool.or_eq_true, Bool.and_eq_true]
    refine or_congr_right ⟨?_, ?_⟩
    · rintro ⟨hbit, hone⟩
      exact ⟨_, _, ⟨hbit, rfl, rfl⟩, hone⟩
    · rintro ⟨_, _, ⟨hbit, rfl, rfl⟩, hone⟩
      exact ⟨hbit, hone⟩

/-- The bits of one row fall on different columns. -/
theorem struck_drawRow (x y : Byte) (r : Nat) (b : Byte) (cv : Canvas) :
    Struck (CellsOfRounds (BitCell x y r b) 8) cv (cv.drawRow x y r b) := by
  refine struck_forUpTo (struck_drawBit x y r b) ?_ cv
  rintro c c' _ _ hc hc' ⟨_, _, hcol⟩ ⟨_, _, hcol'⟩
  exact spriteColumn_injective hc hc' (hcol.symm.trans hcol')

/-- The rows of a sprite fall on different rows of the screen. -/
theorem struck_drawSprite {n : Nat} (hn : n ≤ 16) (x y : Byte) (sprite : Nat → Byte) (cv : Canvas) :
    Struck (SpriteCells x y sprite n) cv (cv.drawSprite x y sprite n) := by
  refine struck_forUpTo (fun r => struck_drawRow x y r (sprite r)) ?_ cv
  rintro r r' _ _ hr hr' ⟨_, _, _, hrow, _⟩ ⟨_, _, _, hrow', _⟩
  exact spriteRow_injective (Nat.lt_of_lt_of_le hr hn) (Nat.lt_of_lt_of_le hr' hn) (hrow.symm.trans hrow')

/-- The sprite of R73 by its rows and bits. -/
theorem spriteCovers_iff (s : State) (n : BitVec 4) (row : Fin 32) (col : Fin 64) :
    SpriteCovers s n row col ↔ SpriteCells s.drawX s.drawY s.spriteByte n.toNat row col := by
  constructor
  · rintro ⟨r, c, hr, hc, hrow, hcol, hbit⟩
    exact ⟨r, hr, c, hc, hbit, Fin.ext hrow.symm, Fin.ext hcol.symm⟩
  · rintro ⟨r, hr, c, hc, hbit, rfl, rfl⟩
    exact ⟨r, c, hr, hc, rfl, rfl, hbit⟩

theorem State.struck_drawn (s : State) (n : BitVec 4) :
    Struck (SpriteCovers s n) { fb := s.fb, hit := false } (s.drawn n) := by
  have hcells : SpriteCovers s n = SpriteCells s.drawX s.drawY s.spriteByte n.toNat :=
    funext₂ fun row col => propext (spriteCovers_iff s n row col)
  rw [hcells]
  exact struck_drawSprite (Nat.le_of_lt n.isLt) _ _ _ _

/-! ### The closed form (R73) -/

theorem collisionFlag_eq_one_iff (hit : Bool) : collisionFlag hit = 1 ↔ hit = true := by
  cases hit <;> decide

theorem collisionFlag_eq_zero_iff (hit : Bool) : collisionFlag hit = 0 ↔ hit = false := by
  cases hit <;> decide

section

variable {ignored : Byte} {n : BitVec 4} {s t : State}

theorem exec_drw_cell_of_covers (h : exec (.drw ignored n) s = .next t) {row : Fin 32} {col : Fin 64}
    (hcovers : SpriteCovers s n row col) : t.cell row col = !s.cell row col := by
  rw [exec_drw] at h
  cases h
  exact (s.struck_drawn n).inside row col hcovers

theorem exec_drw_cell_of_not_covers (h : exec (.drw ignored n) s = .next t) {row : Fin 32} {col : Fin 64}
    (hnot : ¬ SpriteCovers s n row col) : t.cell row col = s.cell row col := by
  rw [exec_drw] at h
  cases h
  exact (s.struck_drawn n).outside row col hnot

theorem exec_drw_flag (h : exec (.drw ignored n) s = .next t) : t.reg 15 = collisionFlag (s.drawn n).hit := by
  rw [exec_drw] at h
  cases h
  exact State.reg_setCollision_flag _ _

theorem State.drawn_hit_iff (s : State) (n : BitVec 4) :
    (s.drawn n).hit = true ↔ ∃ row col, SpriteCovers s n row col ∧ s.cell row col = true := by
  rw [(s.struck_drawn n).hit]
  simp only [Bool.false_eq_true, false_or]
  rfl

/-- VF is 1 exactly if a sprite cell was 1 before. -/
theorem exec_drw_flag_one_iff (h : exec (.drw ignored n) s = .next t) :
    t.reg 15 = 1 ↔ ∃ row col, SpriteCovers s n row col ∧ s.cell row col = true := by
  rw [exec_drw_flag h, collisionFlag_eq_one_iff, State.drawn_hit_iff]

/-- VF is 0 exactly if every sprite cell was 0 before. -/
theorem exec_drw_flag_zero_iff (h : exec (.drw ignored n) s = .next t) :
    t.reg 15 = 0 ↔ ∀ row col, SpriteCovers s n row col → s.cell row col = false := by
  rw [exec_drw_flag h, collisionFlag_eq_zero_iff, ← Bool.not_eq_true, State.drawn_hit_iff]
  simp only [not_exists, not_and, Bool.not_eq_true]

/-- What a draw leaves unchanged, and the advance of PC. -/
theorem exec_drw_frame (h : exec (.drw ignored n) s = .next t) :
    PcAdvanced s t ∧ SameRegsBut 15 s t ∧ t.i = s.i ∧ SameMemory s t ∧ SameInert s t := by
  rw [exec_drw] at h
  cases h
  refine ⟨pcAdvanced_of_pc rfl, fun y hy => ?_, rfl, fun _ => rfl, sameInert_of_fields rfl rfl rfl rfl rfl⟩
  rw [State.reg_advance, State.reg_setCollision_ne _ hy, State.reg_setFb]

end

/-- Settles O26: the rounds of the loops strike different cells, which together are those the sprite covers. -/
theorem drawClosedForm : Obligations.DrawClosedForm := by
  refine ⟨fun x y r r' c c' hr hr' hc hc' hrow hcol => ⟨?_, ?_⟩, fun ignored n s => ?_⟩
  · exact spriteRow_injective hr hr' hrow
  · exact spriteColumn_injective hc hc' hcol
  · obtain ⟨t, hexec⟩ := exec_completes (.drw ignored n) s
    refine ⟨t, hexec, fun _ _ => exec_drw_cell_of_covers hexec, fun _ _ => exec_drw_cell_of_not_covers hexec, ?_, ?_,
      exec_drw_frame hexec⟩
    · exact (exec_drw_flag_one_iff hexec).mpr
    · exact (exec_drw_flag_zero_iff hexec).mpr

/-! ### The double draw -/

section

variable {ignored : Byte} {n : BitVec 4} {s t u : State}

/-- A draw leaves what makes its sprite unchanged: V0, V1, I and memory. -/
theorem exec_drw_spriteCovers_iff (h : exec (.drw ignored n) s = .next t) (row : Fin 32) (col : Fin 64) :
    SpriteCovers t n row col ↔ SpriteCovers s n row col := by
  obtain ⟨_, hregs, hi, hmem, _⟩ := exec_drw_frame h
  rw [SpriteCovers, SpriteCovers, hregs 0 (by decide), hregs 1 (by decide), hi]
  simp only [hmem _]

theorem exec_drw_twice_sameScreen (hfirst : exec (.drw ignored n) s = .next t)
    (hsecond : exec (.drw ignored n) t = .next u) : SameScreen s u := by
  intro row col
  by_cases hcovers : SpriteCovers s n row col
  · have hcovers' := (exec_drw_spriteCovers_iff hfirst row col).mpr hcovers
    rw [exec_drw_cell_of_covers hsecond hcovers', exec_drw_cell_of_covers hfirst hcovers, Bool.not_not]
  · have hnot := mt (exec_drw_spriteCovers_iff hfirst row col).mp hcovers
    rw [exec_drw_cell_of_not_covers hsecond hnot, exec_drw_cell_of_not_covers hfirst hcovers]

/-- The first draw leaves a sprite cell at 1 exactly if it was 0. -/
theorem exec_drw_covered_one_iff (h : exec (.drw ignored n) s = .next t) (row : Fin 32) (col : Fin 64) :
    SpriteCovers s n row col ∧ t.cell row col = true ↔ SpriteCovers s n row col ∧ s.cell row col = false := by
  refine and_congr_right fun hcovers => ?_
  rw [exec_drw_cell_of_covers h hcovers, Bool.not_eq_true']

theorem exec_drw_twice_flag_one_iff (hfirst : exec (.drw ignored n) s = .next t)
    (hsecond : exec (.drw ignored n) t = .next u) :
    u.reg 15 = 1 ↔ ∃ row col, SpriteCovers s n row col ∧ s.cell row col = false := by
  rw [exec_drw_flag_one_iff hsecond]
  simp only [exec_drw_spriteCovers_iff hfirst, exec_drw_covered_one_iff hfirst]

theorem exec_drw_twice_flag_zero (hfirst : exec (.drw ignored n) s = .next t)
    (hsecond : exec (.drw ignored n) t = .next u)
    (hones : ∀ row col, SpriteCovers s n row col → s.cell row col = true) : u.reg 15 = 0 := by
  refine (exec_drw_flag_zero_iff hsecond).mpr fun row col hcovers => ?_
  have hcovers' := (exec_drw_spriteCovers_iff hfirst row col).mp hcovers
  rw [exec_drw_cell_of_covers hfirst hcovers', hones row col hcovers', Bool.not_true]

end

/-- Settles O27: both draws cover the same cells, so the second toggles back what the first toggled, and each flag
follows from the values before its draw. -/
theorem doubleDrawRestoresTheScreen : Obligations.DoubleDrawRestoresTheScreen := by
  intro ignored n s
  obtain ⟨t, hfirst⟩ := exec_completes (.drw ignored n) s
  obtain ⟨u, hsecond⟩ := exec_completes (.drw ignored n) t
  have hzero := exec_drw_flag_zero_iff hfirst
  have hsecondOne := exec_drw_twice_flag_one_iff hfirst hsecond
  have hsecondZero := exec_drw_twice_flag_zero hfirst hsecond
  refine ⟨t, u, hfirst, hsecond, exec_drw_twice_sameScreen hfirst hsecond, ?_, hsecondOne, fun hblank => ⟨?_, ?_⟩,
    fun hempty => ⟨?_, ?_⟩, fun ⟨row, col, hcovers⟩ hones => ⟨?_, hsecondZero hones⟩⟩
  · simp only [hsecondOne, exec_drw_covered_one_iff hfirst]
  · exact hzero.mpr fun row col _ => hblank row col
  · rintro ⟨row, col, hcovers⟩
    exact hsecondOne.mpr ⟨row, col, hcovers, hblank row col⟩
  · exact hzero.mpr fun row col hcovers => absurd hcovers (hempty row col)
  · exact hsecondZero fun row col hcovers => absurd hcovers (hempty row col)
  · exact (exec_drw_flag_one_iff hfirst).mpr ⟨row, col, hcovers, hones row col hcovers⟩

/-! ### What a draw reads (R36) -/

theorem State.drawn_congr {s s' : State} {n : BitVec 4} (hx : s'.reg 0 = s.reg 0) (hy : s'.reg 1 = s.reg 1)
    (hscreen : SameScreen s s') (hsprite : ∀ r, r < n.toNat → s'.spriteByte r = s.spriteByte r) :
    s'.drawn n = s.drawn n := by
  rw [State.drawn, State.drawn, State.drawX, State.drawY, State.drawX, State.drawY, hx, hy,
    State.fb_eq_of_cell hscreen, Canvas.drawSprite_congr hsprite]

/-- Settles O28: framebuffer and flag are those of `State.drawn`, which these readings determine, and PC advances. -/
theorem drawReadsOnlyItsSprite : Obligations.DrawReadsOnlyItsSprite := by
  intro ignored ignored' n s s' t t' hx hy hpc hscreen hsprite h h'
  have hdrawn := State.drawn_congr hx hy hscreen hsprite
  refine ⟨fun row col => ?_, ?_, ?_⟩
  · rw [exec_drw] at h h'
    cases h
    cases h'
    simp only [State.cell_advance, State.cell_setCollision, State.cell_setFb, hdrawn]
  · rw [exec_drw_flag h', exec_drw_flag h, hdrawn]
  · rw [exec_pc h', exec_pc h, hpc, pcAfter, pcAfter]

end Sys2Proof.Machine

/-! PROOFS. Fixed points (R63, R76, R105), the writers and readers of state (R28), control flow (R101), and the monitor
of unknown opcodes (R77). -/

namespace Sys2Proof.Machine

/-! ### States that a step leaves as they are (R63, R76) -/

theorem runSteps_of_fixed {s : State} (h : step s = .next s) (k : Nat) : runSteps k s = .next s := by
  induction k with
  | zero => rfl
  | succ k ih => rw [runSteps_succ_of_step h, ih]

/-- A self-jump is a jump by the value of PC. -/
theorem decodeWord_of_atSelfJump {s : State} (h : AtSelfJump s) :
    ∃ nnn, decodeWord (s.wordAt s.pc.toNat) = .jp nnn ∧ zextAddress nnn = s.pc := by
  obtain ⟨hvalid, hword⟩ := h
  have hfamily : (s.wordAt s.pc.toNat).toNat / 4096 = 0x1 := by omega
  refine ⟨_, decodeWord_of_jpFamily hfamily, BitVec.eq_of_toNat_eq ?_⟩
  rw [zextAddress_toNat, opNnn_toNat]
  omega

/-- At a self-jump, PC is set to the value it has. -/
theorem step_of_atSelfJump {s : State} (hrun : s.life = .running) (h : AtSelfJump s) : step s = .next s := by
  obtain ⟨nnn, hdecode, htarget⟩ := decodeWord_of_atSelfJump h
  rw [step_of_decodeWord hrun hdecode, exec_jp, htarget]
  rfl

theorem stepOutputs_of_atSelfJump {s : State} (hrun : s.life = .running) (h : AtSelfJump s) :
    s.stepOutputs = Outputs.none := by
  obtain ⟨nnn, hdecode, _⟩ := decodeWord_of_atSelfJump h
  rw [stepOutputs_of_decodeWord hrun hdecode, instrOutputs]

theorem step_of_atUnknownOpcode {s : State} (hrun : s.life = .running) (h : AtUnknownOpcode s) : step s = .next s := by
  rw [step_of_decodeWord hrun (decodeWord_of_fitsNoFamily h), exec_unknown]

theorem stepOutputs_of_atUnknownOpcode {s : State} (hrun : s.life = .running) (h : AtUnknownOpcode s) :
    s.stepOutputs = Outputs.report (s.wordAt s.pc.toNat) := by
  rw [stepOutputs_of_decodeWord hrun (decodeWord_of_fitsNoFamily h), instrOutputs]

/-- Settles O32: the self-jump decodes to a jump, which raises nothing and sets PC to the value it has. -/
theorem selfJumpIsAFixedPoint : Obligations.SelfJumpIsAFixedPoint :=
  fun _ hrun h => ⟨stepOutputs_of_atSelfJump hrun h, runSteps_of_fixed (step_of_atSelfJump hrun h)⟩

/-- Settles O33: the step at an unknown opcode answers the same state, so every run does. -/
theorem unknownOpcodeHoldsTheMachine : Obligations.UnknownOpcodeHoldsTheMachine := by
  intro s hrun h k
  refine ⟨runSteps_of_fixed (step_of_atUnknownOpcode hrun h) k, ?_⟩
  rw [stepOutputs_of_atUnknownOpcode hrun h, Outputs.report]

/-! ### No other fixed point (R105) -/

theorem nextPc_ne (pc : Word) : nextPc pc ≠ pc := by
  intro h
  have hval := congrArg BitVec.toNat h
  rw [nextPc_toNat] at hval
  omega

/-- The instructions that leave PC where it is: the jump to it and the unknown opcode. -/
theorem pcAfter_eq_self_iff (i : Instr) (pc : Word) :
    pcAfter i pc = pc ↔ (∃ nnn, i = .jp nnn ∧ zextAddress nnn = pc) ∨ ∃ op, i = .unknown op := by
  cases i with
  | jp nnn => simp [pcAfter]
  | unknown op => simp [pcAfter]
  | cls | ldVx x kk | addVx x kk | ldI nnn | drw ignored n => simp [pcAfter, nextPc_ne]

theorem atSelfJump_of_decodeWord {s : State} {nnn : BitVec 12}
    (hdecode : decodeWord (s.wordAt s.pc.toNat) = .jp nnn) (htarget : zextAddress nnn = s.pc) : AtSelfJump s := by
  have hword := eq_encodeWord_of_decodeWord hdecode
  rw [AtSelfJump, hword, encodeWord_jp_toNat, ← htarget, zextAddress_toNat]
  exact ⟨Nat.le_of_lt_succ nnn.isLt, rfl⟩

/-- A running step that keeps PC stands at one of the two kinds of fixed point. -/
theorem atSelfJump_or_atUnknownOpcode_of_fixed {s : State} (h : step s = .next s) :
    AtSelfJump s ∨ AtUnknownOpcode s := by
  have hpc : pcAfter s.fetchInstr s.pc = s.pc := (exec_pc (exec_of_step h)).symm
  obtain ⟨nnn, hdecode, htarget⟩ | ⟨op, hdecode⟩ := (pcAfter_eq_self_iff _ _).mp hpc
  · exact .inl (atSelfJump_of_decodeWord hdecode htarget)
  · obtain ⟨hnone, _⟩ := (decodeWord_eq_unknown_iff _ _).mp hdecode
    exact .inr hnone

/-- Settles O34: a fixed point keeps PC, which every instruction but the jump to PC and the unknown opcode moves. -/
theorem fixedPointsAreSelfJumpOrUnknown : Obligations.FixedPointsAreSelfJumpOrUnknown := by
  intro s hrun _
  refine ⟨⟨atSelfJump_or_atUnknownOpcode_of_fixed, ?_⟩, fun h => ?_, fun h => ?_⟩
  · rintro (h | h)
    · exact step_of_atSelfJump hrun h
    · exact step_of_atUnknownOpcode hrun h
  · rw [stepOutputs_of_atSelfJump hrun h]
    exact ⟨rfl, rfl⟩
  · rw [stepOutputs_of_atUnknownOpcode hrun h]
    exact ⟨rfl, rfl⟩

/-! ### The writers of each piece of state (R28) -/

/-- A register changes only under a load or an addition of its own, or VF under a draw. -/
theorem exec_writes_reg {i : Instr} {s t : State} (h : exec i s = .next t) {x : BitVec 4}
    (hchanged : t.reg x ≠ s.reg x) :
    (∃ kk, i = .ldVx x kk) ∨ (∃ kk, i = .addVx x kk) ∨ (x = 15 ∧ ∃ ignored n, i = .drw ignored n) := by
  cases i with
  | cls | jp nnn | ldI nnn | unknown op => cases h; exact absurd rfl hchanged
  | ldVx y kk =>
    rw [exec_ldVx] at h
    cases h
    obtain rfl : x = y := by_contra fun hne => hchanged (s.sameRegsBut_setReg_advance y kk x hne)
    exact .inl ⟨kk, rfl⟩
  | addVx y kk =>
    rw [exec_addVx] at h
    cases h
    obtain rfl : x = y := by_contra fun hne => hchanged (s.sameRegsBut_setReg_advance y _ x hne)
    exact .inr (.inl ⟨kk, rfl⟩)
  | drw ignored n =>
    obtain ⟨_, hregs, _⟩ := exec_drw_frame h
    exact .inr (.inr ⟨by_contra fun hne => hchanged (hregs x hne), ignored, n, rfl⟩)

/-- A cell changes only under clear screen or a draw. -/
theorem exec_writes_screen {i : Instr} {s t : State} (h : exec i s = .next t) (hchanged : ¬ SameScreen s t) :
    i = .cls ∨ ∃ ignored n, i = .drw ignored n := by
  cases i with
  | cls => exact .inl rfl
  | drw ignored n => exact .inr ⟨ignored, n, rfl⟩
  | jp nnn | ldVx x kk | addVx x kk | ldI nnn | unknown op => cases h; exact absurd (fun _ _ => rfl) hchanged

/-- Settles O36: each piece of state has its own rule of what an instruction does to it. -/
theorem writersOfEachPieceOfState : Obligations.WritersOfEachPieceOfState := by
  intro i s t h
  obtain ⟨hmem, hstack, hsp, hdt, hst, hlife⟩ := exec_inert h
  refine ⟨fun x => exec_writes_reg h, fun hchanged => ?_, ?_, exec_writes_screen h, State.byteAt_eq_of_mem hmem,
    sameInert_of_fields hstack hsp hdt hst hlife⟩
  · obtain hsame | ⟨nnn, hi, _⟩ := exec_index h
    · exact absurd hsame hchanged
    · exact ⟨nnn, hi⟩
  · rintro hchanged op rfl
    exact hchanged (exec_pc h)

/-! ### The inert state is not read (R28) -/

theorem exec_of_other_inert {i : Instr} {s t : State} (stack : Vector Word 16) (sp dt st : Byte)
    (h : exec i s = .next t) :
    exec i { s with stack := stack, sp := sp, dt := dt, st := st } =
      .next { t with stack := stack, sp := sp, dt := dt, st := st } := by
  cases i with
  | cls | jp nnn | ldVx x kk | addVx x kk | ldI nnn | drw ignored n | unknown op => cases h; rfl

/-- Settles O37: the fetch reads memory and PC, the outputs are those of the fetched instruction, and no instruction
reads the four fields. -/
theorem inertStateIsNeverRead : Obligations.InertStateIsNeverRead := by
  intro s t stack sp dt st hstep
  refine ⟨?_, rfl⟩
  have hrun : s.life = .running := running_of_step hstep
  have hexec := exec_of_other_inert stack sp dt st (exec_of_step hstep)
  exact (step_running (s := { s with stack := stack, sp := sp, dt := dt, st := st }) hrun).trans hexec

/-! ### The path of PC (R101) -/

theorem State.fetchWord_congr {s s' : State} (hmem : SameMemory s s') (hpc : s'.pc = s.pc) :
    s'.fetchWord = s.fetchWord := by
  rw [State.fetchWord_eq, State.fetchWord_eq, hpc, hmem, hmem]

theorem step_pc {s t : State} (h : step s = .next t) : t.pc = pcAfter (decodeWord s.fetchWord) s.pc :=
  exec_pc (exec_of_step h)

theorem step_sameMemory {s t : State} (h : step s = .next t) : SameMemory s t :=
  State.byteAt_eq_of_mem (step_mem h)

/-- One step of two states with the same memory and PC gives such states again. -/
theorem step_keeps_sameMemory_and_pc {s s' u u' : State} (hmem : SameMemory s s') (hpc : s'.pc = s.pc)
    (h : step s = .next u) (h' : step s' = .next u') : SameMemory u u' ∧ u'.pc = u.pc := by
  refine ⟨fun addr => ?_, ?_⟩
  · rw [step_sameMemory h' addr, step_sameMemory h addr, hmem addr]
  · rw [step_pc h', step_pc h, State.fetchWord_congr hmem hpc, hpc]

/-- Settles O38: by induction on the number of steps, memory and PC stay the same in both runs. -/
theorem controlFlowIgnoresData : Obligations.ControlFlowIgnoresData := by
  intro s s' t t' k hmem hpc h h'
  induction k generalizing s s' with
  | zero =>
    cases h
    cases h'
    exact hpc
  | succ k ih =>
    obtain ⟨u, hstep, hrest⟩ := step_of_runSteps_succ h
    obtain ⟨u', hstep', hrest'⟩ := step_of_runSteps_succ h'
    obtain ⟨hmem', hpc'⟩ := step_keeps_sameMemory_and_pc hmem hpc hstep hstep'
    exact ih u u' hmem' hpc' hrest hrest'

/-! ### The monitor (R77) -/

/-- A running step reports an opcode exactly if it stands at an unknown one. -/
theorem stepOutputs_reports_iff {s : State} (hrun : s.life = .running) :
    s.stepOutputs.unknownOpcode.isSome = true ↔ AtUnknownOpcode s := by
  obtain ⟨_, hreport, _⟩ := outputsOfAStep s hrun
  rw [Option.isSome_iff_exists]
  simp only [hreport, exists_and_left, exists_eq, and_true]
  rfl

/-- Some step of a run of `k` steps stands at an unknown opcode. -/
def MeetsUnknownOpcode (k : Nat) (s : State) : Prop := ∃ j u, j < k ∧ runSteps j s = .next u ∧ AtUnknownOpcode u

theorem not_meetsUnknownOpcode_zero (s : State) : ¬ MeetsUnknownOpcode 0 s :=
  fun ⟨_, _, hj, _⟩ => Nat.not_lt_zero _ hj

/-- A run meets an unknown opcode at its first step or in the rest. -/
theorem meetsUnknownOpcode_succ_iff {s u : State} (h : step s = .next u) (k : Nat) :
    MeetsUnknownOpcode (k + 1) s ↔ AtUnknownOpcode s ∨ MeetsUnknownOpcode k u := by
  constructor
  · rintro ⟨j, v, hj, hv, hunknown⟩
    cases j with
    | zero => cases hv; exact .inl hunknown
    | succ j =>
      rw [runSteps_succ_of_step h] at hv
      exact .inr ⟨j, v, Nat.lt_of_succ_lt_succ hj, hv, hunknown⟩
  · rintro (hunknown | ⟨j, v, hj, hv, hunknown⟩)
    · exact ⟨0, s, Nat.succ_pos k, rfl, hunknown⟩
    · exact ⟨j + 1, v, Nat.succ_lt_succ hj, (runSteps_succ_of_step h j).trans hv, hunknown⟩

theorem monitoredRun_succ_of_step {s u : State} (h : step s = .next u) (k : Nat) (b : Bool) :
    monitoredRun (k + 1) { machine := s, reported := b } =
      monitoredRun k { machine := u, reported := b || s.stepOutputs.unknownOpcode.isSome } := by
  simp only [monitoredRun, monitoredStep, h]

/-- The monitored run follows the plain one, from either value of its bit. -/
theorem monitoredRun_of_runSteps {s t : State} {k : Nat} (h : runSteps k s = .next t) (b : Bool) :
    ∃ b', monitoredRun k { machine := s, reported := b } = .next { machine := t, reported := b' } ∧
      (b' = true ↔ b = true ∨ MeetsUnknownOpcode k s) := by
  induction k generalizing s b with
  | zero =>
    cases h
    exact ⟨b, rfl, (or_iff_left (not_meetsUnknownOpcode_zero _)).symm⟩
  | succ k ih =>
    obtain ⟨u, hstep, hrest⟩ := step_of_runSteps_succ h
    obtain ⟨b', hmonitored, hb'⟩ := ih hrest (b || s.stepOutputs.unknownOpcode.isSome)
    refine ⟨b', (monitoredRun_succ_of_step hstep k b).trans hmonitored, ?_⟩
    rw [hb', Bool.or_eq_true, stepOutputs_reports_iff (running_of_step hstep), or_assoc,
      meetsUnknownOpcode_succ_iff hstep]

/-- The run is safe exactly if its monitor ends clear. -/
theorem safeRun_iff_of_monitoredRun {s t : State} {k : Nat} {b : Bool}
    (h : monitoredRun k { machine := s, reported := false } = .next { machine := t, reported := b }) :
    SafeRun k s ↔ b = false := by
  constructor
  · rintro ⟨t', h'⟩
    cases h.symm.trans h'
    rfl
  · rintro rfl
    exact ⟨t, h⟩

/-- Settles O43: started clear, the bit is set exactly if the run meets an unknown opcode. -/
theorem monitorRecordsUnknownOpcodes : Obligations.MonitorRecordsUnknownOpcodes := by
  intro s t k h
  obtain ⟨b, hmonitored, hb⟩ := monitoredRun_of_runSteps h false
  have hmeets : b = true ↔ MeetsUnknownOpcode k s := by simpa only [Bool.false_eq_true, false_or] using hb
  exact ⟨b, hmonitored, hmeets, safeRun_iff_of_monitoredRun hmonitored⟩

end Sys2Proof.Machine
